-- ==== Sys2Proof/Config.lean ====
section
/-! DEFINITION. Config.lean: what a build of CORE fixes (the threshold width TW, 00_scope.md rule R6) and the one value the spec leaves free (93_implementation_defined.md U3). -/

namespace Sys2Proof

/-- The threshold width TW of a build: `bits` is TW, and only the legal values 2 to 12 can be written
(00_scope.md rule R6; 92_eei_decisions.md D5, the one OPEN parameter). -/
structure ThreshWidth where
  /-- TW, the number of bits of THRESH and TACT. -/
  bits : Nat
  two_le : 2 ≤ bits
  le_twelve : bits ≤ 12
  deriving DecidableEq, Repr

/-- TW = 8, the spec's default, and the width spec/opcode_table.json is given for (00_scope.md rule R6,
30_encoding.md rule R76). -/
def ThreshWidth.standard : ThreshWidth := ⟨8, by decide, by decide⟩

/-- FREE VALUE (93_implementation_defined.md U3, treatment `any value`; log entry 9): the initial value of `count` in the
source's reference segmenter (40_segmenter.md rule R90), which the source does not give. It has no body, so no proof can
rest on a value of it. The hardware does not use it: its RUNCNT starts at 0. -/
opaque Config.initialCount : Nat

end Sys2Proof
end

