-- ==== Sys2Proof/Syntax.lean ====
section
/-! DEFINITION. Syntax.lean: the commands of CORE, one constructor per row of spec/opcode_table.json (30_encoding.md rule R76). -/

namespace Sys2Proof

/-- A legal command of CORE. An illegal word is no command of this type: Decode names why it is illegal, and the machine
gives it the effect of 43_control.md rule R145 (Machine.execIllegal). -/
inductive Instr where
  /-- `NOP` (30_encoding.md rule R67, 43_control.md rule R141). -/
  | nop
  /-- `SAMPLE s`; `s` is the line sample, `true` for 1 = line high (rules R68, R77, R92, R93). -/
  | sample (s : Bool)
  /-- `START` (rules R69, R142). -/
  | start
  /-- `END` (rules R70, R123, R124). -/
  | endCapture
  /-- `WRTH v`; `v` is the 12-bit operand field. An encodable `v` has its bits from TW up zero (rules R71, R75, R143;
  WellFormed). -/
  | wrth (v : BitVec 12)
  /-- `READ a`; `a` is the 4-bit register address (rules R73, R144). -/
  | read (a : BitVec 4)
  deriving DecidableEq, Repr

end Sys2Proof
end

