-- ==== Sys2Proof/WellFormed.lean ====
section
/-! DEFINITION. WellFormed.lean: which commands a build of threshold width TW can encode (30_encoding.md rules R66 to R73). -/

namespace Sys2Proof

/-- The command fits the encoding of a build of width `tw`. Only WRTH can fail: "A v that does not fit in TW bits cannot be
encoded" (43_control.md rule R143). Every other operand fills its field exactly. -/
def Instr.wellFormed (tw : ThreshWidth) : Instr → Bool
  | .nop => true
  | .sample _ => true
  | .start => true
  | .endCapture => true
  | .wrth v => decide (v.toNat < 2 ^ tw.bits)
  | .read _ => true

end Sys2Proof
end

