-- ==== Sys2Proof/Word.lean ====
section
/-! DEFINITION. Word.lean: the two word types CORE's interface and frame use (00_scope.md rules R8, R9). -/

namespace Sys2Proof

/-- A command word or a register value: 16 bits (00_scope.md rule R9, 30_encoding.md rules R65 and R66). -/
abbrev Word := BitVec 16

/-- One frame byte: 8 bits (00_scope.md rule R8). -/
abbrev Byte := BitVec 8

end Sys2Proof
end

