-- ==== Sys2Proof/Decode.lean ====
section
/-! DEFINITION. Decode.lean: DecodeCmd of 30_encoding.md rule R74, total over all words and rejecting by name, and the encoder of rules R66 to R73. -/

namespace Sys2Proof

/-- Why a word is illegal: the two cases of 30_encoding.md rule R72. Both have the one effect of 43_control.md rule R145. -/
inductive IllegalWord where
  /-- `op` is 0x6 to 0xF. -/
  | illegalOpcode
  /-- `op` is 0x0 to 0x5 and a reserved operand bit is 1. -/
  | reservedOperandBit
  deriving DecidableEq, Repr

/-- `op = cmd[15:12]` (30_encoding.md rule R66). -/
def opField (cmd : Word) : BitVec 4 := cmd.extractLsb' 12 4

/-- `operand = cmd[11:0]` (30_encoding.md rule R66). -/
def operandField (cmd : Word) : BitVec 12 := cmd.extractLsb' 0 12

/-- The sample `s = cmd[0]` (30_encoding.md rule R75). -/
def sampleField (cmd : Word) : Bool := cmd.getLsbD 0

/-- The threshold `v = cmd[TW-1:0]`, unsigned and not scaled (30_encoding.md rule R75), held in the 12-bit operand. -/
def threshField (tw : ThreshWidth) (cmd : Word) : BitVec 12 := (cmd.setWidth tw.bits).setWidth 12

/-- The register address `a = cmd[3:0]` (30_encoding.md rule R75). -/
def addrField (cmd : Word) : BitVec 4 := cmd.extractLsb' 0 4

/-- The operand bits at `n` and above are all 0: `operand[11:n] = 0` (with n = 12 there is no such bit, and the answer is
`true`, as 30_encoding.md rule R71 says of TW = 12). -/
def upperZero (n : Nat) (operand : BitVec 12) : Bool := operand >>> n == 0#12

/-- `i` where the reserved operand bits are zero, else the word is illegal (30_encoding.md rule R72). -/
def ifReservedZero (ok : Bool) (i : Instr) : Except IllegalWord Instr :=
  if ok then .ok i else .error .reservedOperandBit

/-- `DecodeCmd(cmd)` of 30_encoding.md rule R74; its ILLEGAL is the error, which names the case of rule R72. -/
def decode (tw : ThreshWidth) (cmd : Word) : Except IllegalWord Instr :=
  match (opField cmd).toNat with
  | 0 => ifReservedZero (upperZero 0 (operandField cmd)) .nop
  | 1 => ifReservedZero (upperZero 1 (operandField cmd)) (.sample (sampleField cmd))
  | 2 => ifReservedZero (upperZero 0 (operandField cmd)) .start
  | 3 => ifReservedZero (upperZero 0 (operandField cmd)) .endCapture
  | 4 => ifReservedZero (upperZero tw.bits (operandField cmd)) (.wrth (threshField tw cmd))
  | 5 => ifReservedZero (upperZero 4 (operandField cmd)) (.read (addrField cmd))
  | _ => .error .illegalOpcode

/-- The opcode of a command (30_encoding.md rules R67 to R71 and R73). -/
def opcodeOf : Instr → BitVec 4
  | .nop => 0x0#4
  | .sample _ => 0x1#4
  | .start => 0x2#4
  | .endCapture => 0x3#4
  | .wrth _ => 0x4#4
  | .read _ => 0x5#4

/-- The operand field of a command, its unused bits 0 (30_encoding.md rules R66 to R71 and R73). -/
def operandOf : Instr → BitVec 12
  | .nop => 0#12
  | .sample s => (BitVec.ofBool s).setWidth 12
  | .start => 0#12
  | .endCapture => 0#12
  | .wrth v => v
  | .read a => a.setWidth 12

/-- The 16-bit word of a command: `{op, operand}` (30_encoding.md rule R66). -/
def encode (i : Instr) : Word := opcodeOf i ++ operandOf i

/-- The 16-bit word that spec/opcode_table.json's bits make: `nbits` bits of `w`, every bit above them 0. -/
def tableWord (nbits w : Nat) : Word := BitVec.ofNat 16 (w % 2 ^ nbits)

/-- What the decoder reads from a word given by the opcode table's own bit numbers, in the build the table is given for
(TW = 8, 30_encoding.md rule R76). -/
def decodeTableWord (nbits w : Nat) : Option Instr :=
  match decode ThreshWidth.standard (tableWord nbits w) with
  | .ok i => some i
  | .error _ => none

end Sys2Proof
end

