-- ==== Sys2Proof/Machine/State.lean ====
section
/-! DEFINITION. Machine/State.lean: the state of CORE (10_state.md rules R20 to R31), its ports (30_encoding.md rule R65), the reasons a step can stop, and ResetState (70_reset_and_hazards.md rule R186). -/

namespace Sys2Proof.Machine

/-- PHASE (10_state.md rule R28). -/
inductive Phase where
  /-- CAPTURE, encoded 0: SAMPLE feeds the segmenter and END ends the capture. -/
  | capture
  /-- DONE, encoded 1: the result is frozen. -/
  | done
  deriving DecidableEq, Repr

/-- RESULT (10_state.md rule R29). -/
inductive Result where
  /-- NONE, 0b00: the capture has not ended. -/
  | none
  /-- OK, 0b01: a checksum-valid Reading is available. -/
  | ok
  /-- INCOMPLETE, 0b10: fewer than 40 bits were assembled. -/
  | incomplete
  /-- CHECKSUM, 0b11: 40 bits were assembled but the checksum failed. -/
  | checksum
  deriving DecidableEq, Repr

/-- CORE's input pins in one clock cycle (30_encoding.md rule R65; `clk` is the step itself). -/
structure PortIn where
  /-- `rst`: synchronous reset, active high. -/
  rst : Bool
  /-- `cmd_valid`: `cmd` holds a command for this cycle. -/
  cmdValid : Bool
  /-- `cmd`: the command word. -/
  cmd : Word
  deriving DecidableEq, Repr

/-- CORE's output pins (30_encoding.md rule R65). -/
structure PortOut where
  /-- `rdata`: read data of a READ issued this cycle, else 0x0000. -/
  rdata : Word
  /-- `done`: the level of PHASE (60_exceptions.md rule R166). -/
  done : Bool
  deriving DecidableEq, Repr

/-- CORE. `prev` to `illcmd` are the ten state elements of 10_state.md rules R22 to R31, and nothing else is state of the
hardware (rules R20 and R46). `tw`, `resetSeen`, `rdata` and `input` are the MODEL's own fields: the build parameter, whether
the block was ever reset, the output pin's last value, and the host's command stream (log entries 1, 5, 4, 3). -/
structure State where
  /-- TW, the build parameter (00_scope.md rule R6). No step changes it (log entry 1). -/
  tw : ThreshWidth
  /-- Reset has been asserted since power-on (70_reset_and_hazards.md rule R187; log entry 5). -/
  resetSeen : Bool
  /-- PREV (rule R23): the last sample consumed in this capture. -/
  prev : Bool
  /-- RUNCNT (rule R22): CW = TW + 1 bits of it are used, at most 13 (log entry 2). -/
  runcnt : BitVec 13
  /-- ACC (rule R24): the 40-bit frame accumulator. -/
  acc : BitVec 40
  /-- BITCNT (rule R25): bits assembled in this capture, 0 to 40. -/
  bitcnt : BitVec 6
  /-- THRESH (rule R26): TW bits of it are used, at most 12 (log entry 2). -/
  thresh : BitVec 12
  /-- TACT (rule R27): TW bits of it are used, at most 12 (log entry 2). -/
  tact : BitVec 12
  /-- PHASE (rule R28). -/
  phase : Phase
  /-- RESULT (rule R29). -/
  result : Result
  /-- LATE (rule R30): sticky, a sample came after END. -/
  late : Bool
  /-- ILLCMD (rule R31): sticky, an illegal word came. -/
  illcmd : Bool
  /-- What the `rdata` output drove in the last cycle (43_control.md rules R144 and R146; log entry 4). -/
  rdata : Word
  /-- The host's port cycles not yet taken, the next one first (rules R21, R51, R58; log entry 3). -/
  input : List PortIn
  deriving DecidableEq, Repr

/-- Why the machine can stop. -/
inductive Fault where
  /-- A cycle without `rst` before the first reset after power-on. Raised by Machine.clock, for `resetSeen = false` only.
  70_reset_and_hazards.md rule R187 calls that state unspecified, and 93_implementation_defined.md U4 gives the treatment
  `stuck`. SAFE: it only makes claims about unreset hardware unprovable. -/
  | beforeFirstReset
  deriving DecidableEq, Repr

/-- Why the machine can refuse a command. -/
inductive Refusal where
  /-- A command with no meaning in this model. Raised by a refused arm of Machine.exec only; every command has its meaning,
  so nothing raises it. SAFE. -/
  | notModelled (mnemonic : String)
  deriving DecidableEq, Repr

/-- ResetState of 70_reset_and_hazards.md rule R186 in a build of width `tw`: every element at the value of the rule's table.
The host has no cycle pending, and `rdata` is what a reset cycle drives, 0x0000 (rule R185). -/
def State.resetFor (tw : ThreshWidth) : State where
  tw := tw
  resetSeen := true
  prev := false
  runcnt := 0
  acc := 0
  bitcnt := 0
  thresh := 3
  tact := 3
  phase := .capture
  result := .none
  late := false
  illcmd := false
  rdata := 0
  input := []

/-- The machine right after reset, in the default build TW = 8 (00_scope.md rule R6). -/
def State.reset : State := State.resetFor ThreshWidth.standard

end Sys2Proof.Machine
end

