-- ==== Sys2Proof/Machine/Ops.lean ====
section
/-! DEFINITION. Machine/Ops.lean: the named operations of CORE over its state: the parameters of 00_scope.md rule R7, the segmenter step, the classifier, the accumulator, the derived values of 10_state.md rule R32, and the writes the commands make. CORE has no memory (20_memory.md rule R50) and takes no exception (60_exceptions.md rules R160 and R165): what it has in an exception's place, the recording of a capture's outcome, is State.recordResult. -/

namespace Sys2Proof.Machine

/-- TMAX = 2^TW − 1, the largest threshold (00_scope.md rule R7). -/
def tmax (tw : ThreshWidth) : Nat := 2 ^ tw.bits - 1

/-- CMAX = 2^CW − 1 with CW = TW + 1, the running count's saturation value (00_scope.md rule R7). -/
def cmax (tw : ThreshWidth) : Nat := 2 ^ (tw.bits + 1) - 1

/-- `sat_inc(x) = (x = CMAX) ? x : x + 1` (00_scope.md rule R11). -/
def satInc (tw : ThreshWidth) (x : BitVec 13) : BitVec 13 :=
  if x.toNat = cmax tw then x else x + 1

/-- `SegStep(PREV, RUNCNT, s) = (PREV', RUNCNT', emit)` of 40_segmenter.md rule R91; `emit` is the pulse's width, or none. -/
def segStep (tw : ThreshWidth) (prev : Bool) (runcnt : BitVec 13) (s : Bool) :
    Bool × BitVec 13 × Option (BitVec 13) :=
  match prev, s with
  | false, true => (true, 1, none)
  | true, false => (false, runcnt, some runcnt)
  | true, true => (true, satInc tw runcnt, none)
  | false, false => (false, runcnt, none)

/-- `Classify(w, T)`: 1 where `w > T`, unsigned (41_classifier.md rule R105). -/
def classify (w : BitVec 13) (t : BitVec 12) : Bool := decide (t.toNat < w.toNat)

/-- `x` with its bit `i` set to `b`. -/
def writeBit (x : BitVec 40) (i : Nat) (b : Bool) : BitVec 40 :=
  if b then x ||| BitVec.twoPow 40 i else x &&& ~~~BitVec.twoPow 40 i

/-- `AccPush(b)` of 41_classifier.md rule R110: the bit goes to `ACC[39 - BITCNT]` while BITCNT is below 40; later bits are
discarded. -/
def State.accPush (s : State) (b : Bool) : State :=
  { s with
    acc := if s.bitcnt.toNat < 40 then writeBit s.acc (39 - s.bitcnt.toNat) b else s.acc
    bitcnt := if s.bitcnt.toNat < 40 then s.bitcnt + 1 else s.bitcnt }

/-- The classifier and the accumulator on what the segmenter emitted: nothing, or `AccPush(Classify(w, TACT))`
(40_segmenter.md rule R92). -/
def State.takePulse (s : State) : Option (BitVec 13) → State
  | none => s
  | some w => s.accPush (classify w s.tact)

/-- The segmenter's two writes, PREV and RUNCNT (40_segmenter.md rule R92). -/
def State.setSegmenter (s : State) (prev : Bool) (runcnt : BitVec 13) : State :=
  { s with prev := prev, runcnt := runcnt }

/-- `byte(j) = ACC[39 − 8j : 32 − 8j]`, j = 0..4 (10_state.md rules R24 and R32). -/
def frameByte (acc : BitVec 40) (j : Fin 5) : Byte := acc.extractLsb' (32 - 8 * j.val) 8

/-- `EXPSUM`, the sum of the first four bytes mod 256 (10_state.md rule R32). -/
def expSum (acc : BitVec 40) : Byte :=
  frameByte acc 0 + frameByte acc 1 + frameByte acc 2 + frameByte acc 3

/-- Tenths of a value whose integer part is `whole` and whose fractional part is `tenths`, in 0..2805, 12 bits; a `tenths` of
10 or more is taken as it stands (10_state.md rule R32, 42_frame_decoder.md rules R121 and R122). -/
def inTenths (whole tenths : Byte) : BitVec 12 := BitVec.ofNat 12 (10 * whole.toNat + tenths.toNat)

/-- `HUM10` (10_state.md rule R32). -/
def hum10 (acc : BitVec 40) : BitVec 12 := inTenths (frameByte acc 0) (frameByte acc 1)

/-- `TEMP10` (10_state.md rule R32). -/
def temp10 (acc : BitVec 40) : BitVec 12 := inTenths (frameByte acc 2) (frameByte acc 3)

/-- `rdata <- v`: the read-data output for this operation (00_scope.md rule R11). -/
def State.drive (s : State) (v : Word) : State := { s with rdata := v }

/-- `THRESH <- v` (43_control.md rule R143). -/
def State.setThresh (s : State) (v : BitVec 12) : State := { s with thresh := v }

/-- The recording of a capture's outcome: PHASE becomes DONE and RESULT the code. This is all that happens where a processor
would take an exception: "nothing is saved", "control goes nowhere" (60_exceptions.md rules R160 and R165,
42_frame_decoder.md rule R123). -/
def State.recordResult (s : State) (r : Result) : State := { s with phase := .done, result := r }

/-- START's writes: a fresh capture with THRESH latched into TACT (43_control.md rule R142). It is also the only way out of
DONE, in a trap return's place (60_exceptions.md rule R167). -/
def State.beginCapture (s : State) : State :=
  { s with
    prev := false
    runcnt := 0
    acc := 0
    bitcnt := 0
    tact := s.thresh
    phase := .capture
    result := .none
    late := false
    illcmd := false }

/-- Reset's writes: every element takes its reset value (70_reset_and_hazards.md rules R185 and R186). The build stays what it
is, and the host's later cycles stay the host's (log entry 7). -/
def State.toReset (s : State) : State := { State.resetFor s.tw with input := s.input }

/-- `s` with the host's pending cycles replaced (log entry 3). -/
def State.withInput (s : State) (ps : List PortIn) : State := { s with input := ps }

end Sys2Proof.Machine
end

