-- ==== Sys2Proof/Machine/Flags.lean ====
section
/-! DEFINITION. Machine/Flags.lean: the flag computations: the codes of PHASE and RESULT, the STATUS word, the two sticky flags, END's judgement, and the output pins. -/

namespace Sys2Proof.Machine

/-- CAPTURE is encoded 0 and DONE 1 (10_state.md rule R28). -/
def phaseCode : Phase → BitVec 1
  | .capture => 0#1
  | .done => 1#1

/-- The RESULT code (10_state.md rule R29). -/
def resultCode : Result → BitVec 2
  | .none => 0b00#2
  | .ok => 0b01#2
  | .incomplete => 0b10#2
  | .checksum => 0b11#2

/-- `STATUS = {0^10, PREV, ILLCMD, LATE, RESULT[1:0], PHASE}` (10_state.md rule R33, 43_control.md rule R147). -/
def statusWord (s : State) : Word :=
  0#10 ++ BitVec.ofBool s.prev ++ BitVec.ofBool s.illcmd ++ BitVec.ofBool s.late ++ resultCode s.result
    ++ phaseCode s.phase

/-- `LATE <- 1` (10_state.md rule R30, 40_segmenter.md rule R93). -/
def State.raiseLate (s : State) : State := { s with late := true }

/-- `ILLCMD <- 1` (10_state.md rule R31, 43_control.md rule R145). -/
def State.raiseIllcmd (s : State) : State := { s with illcmd := true }

/-- END's judgement: the length first, then the checksum (42_frame_decoder.md rule R123, 60_exceptions.md rule R164). -/
def judge (bitcnt : BitVec 6) (acc : BitVec 40) : Result :=
  if bitcnt.toNat < 40 then .incomplete
  else if expSum acc ≠ frameByte acc 4 then .checksum
  else .ok

/-- The `done` output equals PHASE (60_exceptions.md rule R166). -/
def doneLevel (s : State) : Bool := s.phase == .done

/-- The output pins. Before the first reset they are unspecified, and there is no value here (70_reset_and_hazards.md rule
R187; log entry 5). -/
def pinsOut (s : State) : Option PortOut :=
  if s.resetSeen then some { rdata := s.rdata, done := doneLevel s } else none

end Sys2Proof.Machine
end

