-- ==== Sys2Proof/Machine/Operands.lean ====
section
/-! DEFINITION. Machine/Operands.lean: what the commands' operands name: the threshold operand (30_encoding.md rule R75) and the register space READ reaches (20_memory.md rule R53, 43_control.md rule R147). -/

namespace Sys2Proof.Machine

/-- The registers of 20_memory.md rule R53. -/
inductive RegName where
  | status | bitcnt | thresh | tact | runcnt | frame01 | frame23 | check | hum10 | temp10
  /-- Addresses 0xA to 0xF (10_state.md rule R43). -/
  | reserved
  deriving DecidableEq, Repr

/-- The register at an address (20_memory.md rule R53). -/
def regAt (a : BitVec 4) : RegName :=
  match a.toNat with
  | 0x0 => .status
  | 0x1 => .bitcnt
  | 0x2 => .thresh
  | 0x3 => .tact
  | 0x4 => .runcnt
  | 0x5 => .frame01
  | 0x6 => .frame23
  | 0x7 => .check
  | 0x8 => .hum10
  | 0x9 => .temp10
  | _ => .reserved

/-- A register's 16 bits (10_state.md rules R33 to R43). Every bit that is no field reads 0, and no read changes anything. -/
def regValue (s : State) : RegName → Word
  | .status => statusWord s
  | .bitcnt => s.bitcnt.setWidth 16
  | .thresh => s.thresh.setWidth 16
  | .tact => s.tact.setWidth 16
  | .runcnt => s.runcnt.setWidth 16
  | .frame01 => frameByte s.acc 0 ++ frameByte s.acc 1
  | .frame23 => frameByte s.acc 2 ++ frameByte s.acc 3
  | .check => expSum s.acc ++ frameByte s.acc 4
  | .hum10 => if s.result = .ok then (hum10 s.acc).setWidth 16 else 0
  | .temp10 => if s.result = .ok then (temp10 s.acc).setWidth 16 else 0
  | .reserved => 0

/-- `RegRead(a)` of 43_control.md rule R147. -/
def regRead (s : State) (a : BitVec 4) : Word := regValue s (regAt a)

/-- The value WRTH moves into THRESH: exactly the low TW bits of its operand, `v = cmd[TW−1:0]` (30_encoding.md rule R75,
20_memory.md rule R56). For every operand a word can hold this is the operand itself (log entry 6). -/
def threshOperand (tw : ThreshWidth) (v : BitVec 12) : BitVec 12 := (v.setWidth tw.bits).setWidth 12

end Sys2Proof.Machine
end

