-- ==== Sys2Proof/Machine/Control.lean ====
section
/-! DEFINITION. Machine/Control.lean: the control commands NOP, START, WRTH and READ, and the illegal command (43_control.md rules R141 to R145). -/

namespace Sys2Proof.Machine

/-- NOP (43_control.md rule R141). -/
def execNop (s : State) : Host.Outcome State Fault Refusal := .next (s.drive 0)

/-- START (43_control.md rule R142). -/
def execStart (s : State) : Host.Outcome State Fault Refusal := .next (s.beginCapture.drive 0)

/-- WRTH v, in either phase; TACT keeps its value (43_control.md rule R143). -/
def execWrth (v : BitVec 12) (s : State) : Host.Outcome State Fault Refusal :=
  .next ((s.setThresh (threshOperand s.tw v)).drive 0)

/-- READ a: `rdata` is the register's value before the command, and no state changes (43_control.md rule R144). -/
def execRead (a : BitVec 4) (s : State) : Host.Outcome State Fault Refusal := .next (s.drive (regRead s a))

/-- The illegal command: ILLCMD is set and nothing else changes; the hardware continues (43_control.md rule R145,
60_exceptions.md rule R163). It is no constructor of Instr: Machine.issue takes it for every word Decode rejects. -/
def execIllegal (s : State) : Host.Outcome State Fault Refusal := .next (s.raiseIllcmd.drive 0)

/-- A cycle with `cmd_valid = 0`: no state changes and `rdata` is 0x0000, "exactly like NOP" (30_encoding.md rule R65,
60_exceptions.md rule R172). -/
def execIdle (s : State) : Host.Outcome State Fault Refusal := .next (s.drive 0)

end Sys2Proof.Machine
end

