-- ==== Sys2Proof/Machine/Frame.lean ====
section
/-! DEFINITION. Machine/Frame.lean: the END command in its two phases (42_frame_decoder.md rules R123 and R124). -/

namespace Sys2Proof.Machine

/-- END: in CAPTURE the accumulator as it stands is judged and the outcome recorded, an open high run being dropped; in DONE
nothing changes (42_frame_decoder.md rules R123 and R124). -/
def execEnd (s : State) : Host.Outcome State Fault Refusal :=
  match s.phase with
  | .capture => .next ((s.recordResult (judge s.bitcnt s.acc)).drive 0)
  | .done => .next (s.drive 0)

end Sys2Proof.Machine
end

