-- ==== Sys2Proof/Machine/Segmenter.lean ====
section
/-! DEFINITION. Machine/Segmenter.lean: the SAMPLE command in its two phases (40_segmenter.md rules R92 and R93). -/

namespace Sys2Proof.Machine

/-- SAMPLE in CAPTURE: the segmenter step, and the classifier and accumulator on what it emits (40_segmenter.md rule R92). -/
def State.capturedSample (s : State) (x : Bool) : State :=
  let seg := segStep s.tw s.prev s.runcnt x
  (s.setSegmenter seg.1 seg.2.1).takePulse seg.2.2

/-- SAMPLE: in DONE the sample is ignored and LATE is set (40_segmenter.md rules R92 and R93). -/
def execSample (x : Bool) (s : State) : Host.Outcome State Fault Refusal :=
  match s.phase with
  | .capture => .next ((s.capturedSample x).drive 0)
  | .done => .next (s.raiseLate.drive 0)

end Sys2Proof.Machine
end

