-- ==== Sys2Proof/Machine/Dispatch.lean ====
section
/-! DEFINITION. Machine/Dispatch.lean: the case split of Step over the legal commands (43_control.md rule R146), one arm per constructor. -/

namespace Sys2Proof.Machine

def exec (i : Instr) (s : State) : Host.Outcome State Fault Refusal :=
  match i with
  | .nop => Sys2Proof.Machine.execNop s
  | .sample x => Sys2Proof.Machine.execSample x s
  | .start => Sys2Proof.Machine.execStart s
  | .endCapture => Sys2Proof.Machine.execEnd s
  | .wrth v => Sys2Proof.Machine.execWrth v s
  | .read a => Sys2Proof.Machine.execRead a s

end Sys2Proof.Machine
end

