-- ==== Sys2Proof/Machine/Cycle.lean ====
section
/-! DEFINITION. Machine/Cycle.lean: one clock cycle of CORE on given input pins (43_control.md rule R146, 70_reset_and_hazards.md rule R185), the fold over a sequence of cycles (20_memory.md rule R58), and taking the host's next cycle. -/

namespace Sys2Proof.Machine

/-- A cycle in which the host issues no command (30_encoding.md rule R65). -/
def idleCycle : PortIn := { rst := false, cmdValid := false, cmd := 0 }

/-- A cycle in which the host issues the command word `w`. -/
def commandCycle (w : Word) : PortIn := { rst := false, cmdValid := true, cmd := w }

/-- `Step(S, cmd)` of 43_control.md rule R146: a legal word runs its command, an illegal word has the effect of rule R145. -/
def issue (w : Word) (s : State) : Host.Outcome State Fault Refusal :=
  match decode s.tw w with
  | .ok i => exec i s
  | .error _ => execIllegal s

/-- One rising edge of `clk` with the pins `p`. Reset wins and the command is lost (70_reset_and_hazards.md rules R185 and
R197); before the first reset nothing else has a meaning (rule R187; log entry 5); with `cmd_valid = 0` nothing changes. -/
def clock (p : PortIn) (s : State) : Host.Outcome State Fault Refusal :=
  if p.rst then .next s.toReset
  else if s.resetSeen = false then .fault .beforeFirstReset
  else if p.cmdValid then issue p.cmd s
  else execIdle s

/-- The left fold of the cycle over a sequence of cycles (20_memory.md rule R58, 43_control.md rule R146). -/
def runCycles : List PortIn → State → Host.Outcome State Fault Refusal
  | [], s => .next s
  | p :: ps, s =>
    match clock p s with
    | .next t => runCycles ps t
    | .fault r => .fault r
    | .refused r => .refused r

/-- The host's next cycle; a host with no cycle left leaves the port idle (log entry 3). -/
def nextCycle (s : State) : PortIn := s.input.headD idleCycle

/-- `s` once its next cycle is taken from the host's stream. -/
def afterTaking (s : State) : State := s.withInput s.input.tail

/-- `s` with the host issuing the command word `w` in its next cycle. -/
def placeCommand (s : State) (w : Word) : State := s.withInput (commandCycle w :: s.input)

end Sys2Proof.Machine
end

