-- ==== Sys2Proof/Machine/Step.lean ====
section
/-! DEFINITION. Machine/Step.lean: the machine's step, one clock cycle on the host's next port cycle, and the placing of a word where the step takes it. -/

namespace Sys2Proof.Machine

/-- One clock cycle: the host's next cycle is taken and its pins are clocked in (43_control.md rule R146; log entry 3). -/
def step (s : State) : Host.Outcome State Fault Refusal := clock (nextCycle s) (afterTaking s)

/-- `s` with the host issuing the opcode table's word `w` (of `nbits` bits, every bit above them 0) in the next cycle, before
the cycles it already had pending. CORE fetches nothing (10_state.md rule R21), so this stands for the host's issuing of a
command (log entry 3). -/
def State.withFetchWord (s : State) (nbits w : Nat) : State := placeCommand s (tableWord nbits w)

end Sys2Proof.Machine
end

