-- ==== Sys2Proof/Machine/Assembler.lean ====
section
/-! DEFINITION. Machine/Assembler.lean: the assembly syntax and the pseudo-instructions of 30_encoding.md rules R80 and R81 (log entry 10). The machine does not use them: they write command streams for it. -/

namespace Sys2Proof.Machine

/-- `HIGH n` (30_encoding.md rule R81). -/
def highCmds (n : Nat) : List Instr := List.replicate n (.sample true)

/-- `LOW n` (30_encoding.md rule R81). -/
def lowCmds (n : Nat) : List Instr := List.replicate n (.sample false)

/-- `SENDBIT b, T` (30_encoding.md rule R81). -/
def sendBitCmds (t : Nat) (b : Bool) : List Instr :=
  if b then highCmds (t + 1) ++ lowCmds 1 else highCmds 1 ++ lowCmds 1

/-- The bits of a byte, the most significant first. -/
def msbFirst (x : Byte) : List Bool := (List.range 8).map fun i => x.getLsbD (7 - i)

/-- `SENDBYTE x, T`: most significant bit first (30_encoding.md rule R81). -/
def sendByteCmds (t : Nat) (x : Byte) : List Instr := ((msbFirst x).map (sendBitCmds t)).flatten

/-- `SENDFRAME b0, b1, b2, b3, b4, T` (30_encoding.md rule R81). -/
def sendFrameCmds (t : Nat) (bytes : List Byte) : List Instr := (bytes.map (sendByteCmds t)).flatten

/-- One line of assembly: the command forms of 30_encoding.md rule R80 and the pseudo-instructions of rule R81, with their
operands as they are written, not yet checked. -/
inductive AsmLine where
  | nop
  | sample (s : Nat)
  | start
  | endCapture
  | wrth (v : Nat)
  | read (a : Nat)
  /-- `.word w`. -/
  | word (w : Nat)
  /-- `SAMPLES "b0 b1 ... bn"`. -/
  | samples (bits : List Bool)
  | high (n : Nat)
  | low (n : Nat)
  | sendBit (b t : Nat)
  | sendByte (x t : Nat)
  | sendFrame (b0 b1 b2 b3 b4 t : Nat)
  | setT (v : Nat)
  deriving DecidableEq, Repr

/-- Why the assembler refuses a line. -/
inductive AsmError where
  /-- The mnemonic is none of rules R80 and R81. -/
  | unknownMnemonic
  /-- The operands are not those of the mnemonic's form. -/
  | malformedOperands
  /-- An operand is out of the range its form gives. -/
  | operandOutOfRange
  deriving DecidableEq, Repr

/-- `cmds` where the operands are in range. -/
def inRange (ok : Bool) (cmds : List Instr) : Except AsmError (List Word) :=
  if ok then .ok (cmds.map encode) else .error .operandOutOfRange

/-- `SENDBIT` and its like are defined for 1 ≤ T ≤ TMAX (30_encoding.md rule R81). -/
def sendable (tw : ThreshWidth) (t : Nat) : Bool := decide (1 ≤ t) && decide (t < 2 ^ tw.bits)

/-- The words of one line, in a build of width `tw` (30_encoding.md rules R80 and R81; log entry 10 names what the rules leave
open). -/
def assembleLine (tw : ThreshWidth) : AsmLine → Except AsmError (List Word)
  | .nop => .ok [encode .nop]
  | .sample s => inRange (decide (s < 2)) [.sample (s == 1)]
  | .start => .ok [encode .start]
  | .endCapture => .ok [encode .endCapture]
  | .wrth v => inRange (decide (v < 2 ^ tw.bits)) [.wrth (BitVec.ofNat 12 v)]
  | .read a => inRange (decide (a < 16)) [.read (BitVec.ofNat 4 a)]
  | .word w => if w < 65536 then .ok [BitVec.ofNat 16 w] else .error .operandOutOfRange
  | .samples bits => .ok (bits.map fun b => encode (.sample b))
  | .high n => .ok ((highCmds n).map encode)
  | .low n => .ok ((lowCmds n).map encode)
  | .sendBit b t => inRange (decide (b < 2) && sendable tw t) (sendBitCmds t (b == 1))
  | .sendByte x t => inRange (decide (x < 256) && sendable tw t) (sendByteCmds t (BitVec.ofNat 8 x))
  | .sendFrame b0 b1 b2 b3 b4 t =>
    inRange ([b0, b1, b2, b3, b4].all (fun b => decide (b < 256)) && sendable tw t)
      (sendFrameCmds t ([b0, b1, b2, b3, b4].map (BitVec.ofNat 8)))
  | .setT v => inRange (decide (v < 2 ^ tw.bits)) [.wrth (BitVec.ofNat 12 v), .start]

/-- A space or a tab. -/
def isBlank (c : Char) : Bool := c == ' ' || c == '\t'

/-- `cs` without the blanks at its two ends. -/
def trim (cs : List Char) : List Char := ((cs.dropWhile isBlank).reverse.dropWhile isBlank).reverse

/-- The value of a digit, in base 16. -/
def digitValue (c : Char) : Option Nat :=
  if '0' ≤ c && c ≤ '9' then some (c.toNat - 48)
  else if 'a' ≤ c && c ≤ 'f' then some (c.toNat - 87)
  else if 'A' ≤ c && c ≤ 'F' then some (c.toNat - 55)
  else none

/-- The value of a digit sequence in a base, after `acc`. -/
def digitsFrom (base : Nat) : Nat → List Char → Option Nat
  | acc, [] => some acc
  | acc, c :: cs =>
    match digitValue c with
    | some d => if d < base then digitsFrom base (base * acc + d) cs else none
    | none => none

/-- A number: "decimal, or hexadecimal with `0x`" (30_encoding.md rule R80). DESIGN CHOICE (log entry 10): leading zeros and
hexadecimal digits of either case are read, and an `0X` is not. -/
def numberOf : List Char → Option Nat
  | '0' :: 'x' :: c :: cs => digitsFrom 16 0 (c :: cs)
  | c :: cs => digitsFrom 10 0 (c :: cs)
  | [] => none

/-- A register address by name (30_encoding.md rule R80, 20_memory.md rule R53). -/
def registerAddress (cs : List Char) : Option Nat :=
  if cs = ['S', 'T', 'A', 'T', 'U', 'S'] then some 0x0
  else if cs = ['B', 'I', 'T', 'C', 'N', 'T'] then some 0x1
  else if cs = ['T', 'H', 'R', 'E', 'S', 'H'] then some 0x2
  else if cs = ['T', 'A', 'C', 'T'] then some 0x3
  else if cs = ['R', 'U', 'N', 'C', 'N', 'T'] then some 0x4
  else if cs = ['F', 'R', 'A', 'M', 'E', '0', '1'] then some 0x5
  else if cs = ['F', 'R', 'A', 'M', 'E', '2', '3'] then some 0x6
  else if cs = ['C', 'H', 'E', 'C', 'K'] then some 0x7
  else if cs = ['H', 'U', 'M', '1', '0'] then some 0x8
  else if cs = ['T', 'E', 'M', 'P', '1', '0'] then some 0x9
  else none

/-- The bits of a quoted `SAMPLES` operand, its spaces ignored (30_encoding.md rule R81). DESIGN CHOICE (log entry 10), as the
rule writes the list `b0 b1 ... bn` and does not say: a list of no bits is a legal line and gives no words, and any character
but a space, 0, 1 and the closing quote at the end of the line is refused. -/
def bitsUntilQuote : List Char → Option (List Bool)
  | [] => none
  | c :: cs =>
    if c = Char.ofNat 34 then (if cs = [] then some [] else none)
    else if c = ' ' then bitsUntilQuote cs
    else if c = '0' then (bitsUntilQuote cs).map (false :: ·)
    else if c = '1' then (bitsUntilQuote cs).map (true :: ·)
    else none

/-- A quoted `SAMPLES` operand. -/
def quotedBits : List Char → Option (List Bool)
  | [] => none
  | c :: cs => if c = Char.ofNat 34 then bitsUntilQuote cs else none

/-- The operands of a line, separated by commas (30_encoding.md rule R80). -/
def splitAtCommas : List Char → List (List Char)
  | [] => [[]]
  | c :: cs =>
    match splitAtCommas cs with
    | [] => [[c]]
    | first :: rest => if c = ',' then [] :: first :: rest else (c :: first) :: rest

/-- Every operand as a number, or none if one is not. -/
def numbersOf : List (List Char) → Option (List Nat)
  | [] => some []
  | cs :: rest =>
    match numberOf (trim cs), numbersOf rest with
    | some n, some ns => some (n :: ns)
    | _, _ => none

/-- The numeric operands of a line: none for an empty operand part. -/
def operandsOf (cs : List Char) : Option (List Nat) := if cs = [] then some [] else numbersOf (splitAtCommas cs)

/-- The operand of READ: a number or a register name (30_encoding.md rule R80). -/
def readOperand (cs : List Char) : Except AsmError AsmLine :=
  match registerAddress cs, numberOf cs with
  | some a, _ => .ok (.read a)
  | none, some a => .ok (.read a)
  | none, none => .error .malformedOperands

/-- A line from its numeric operands, or the refusal of an operand part that has not the form's number of them. -/
def withOperands (ops : Option (List Nat)) (form : List Nat → Option AsmLine) : Except AsmError AsmLine :=
  match ops.bind form with
  | some line => .ok line
  | none => .error .malformedOperands

/-- The line that a mnemonic and its operand part are (30_encoding.md rules R80 and R81). -/
def lineOf (m ops : List Char) : Except AsmError AsmLine :=
  let nums := operandsOf ops
  if m = ['N', 'O', 'P'] then withOperands nums fun | [] => some .nop | _ => none
  else if m = ['S', 'A', 'M', 'P', 'L', 'E'] then withOperands nums fun | [s] => some (.sample s) | _ => none
  else if m = ['S', 'T', 'A', 'R', 'T'] then withOperands nums fun | [] => some .start | _ => none
  else if m = ['E', 'N', 'D'] then withOperands nums fun | [] => some .endCapture | _ => none
  else if m = ['W', 'R', 'T', 'H'] then withOperands nums fun | [v] => some (.wrth v) | _ => none
  else if m = ['R', 'E', 'A', 'D'] then readOperand ops
  else if m = ['.', 'w', 'o', 'r', 'd'] then withOperands nums fun | [w] => some (.word w) | _ => none
  else if m = ['S', 'A', 'M', 'P', 'L', 'E', 'S'] then
    match quotedBits ops with
    | some bits => .ok (.samples bits)
    | none => .error .malformedOperands
  else if m = ['H', 'I', 'G', 'H'] then withOperands nums fun | [n] => some (.high n) | _ => none
  else if m = ['L', 'O', 'W'] then withOperands nums fun | [n] => some (.low n) | _ => none
  else if m = ['S', 'E', 'N', 'D', 'B', 'I', 'T'] then
    withOperands nums fun | [b, t] => some (.sendBit b t) | _ => none
  else if m = ['S', 'E', 'N', 'D', 'B', 'Y', 'T', 'E'] then
    withOperands nums fun | [x, t] => some (.sendByte x t) | _ => none
  else if m = ['S', 'E', 'N', 'D', 'F', 'R', 'A', 'M', 'E'] then
    withOperands nums fun | [b0, b1, b2, b3, b4, t] => some (.sendFrame b0 b1 b2 b3 b4 t) | _ => none
  else if m = ['S', 'E', 'T', 'T'] then withOperands nums fun | [v] => some (.setT v) | _ => none
  else .error .unknownMnemonic

/-- A line of text without its comment and the blanks around it; "comments start with `;`" (30_encoding.md rule R80). -/
def stripComment (cs : List Char) : List Char := trim (cs.takeWhile fun c => !(c == ';'))

/-- The words of one line of text. DESIGN CHOICE (log entry 10): a line that is empty but for a comment gives none, and the
mnemonic ends at the first blank. -/
def assembleText (tw : ThreshWidth) (text : List Char) : Except AsmError (List Word) :=
  let cs := stripComment text
  if cs = [] then .ok []
  else
    match lineOf (cs.takeWhile fun c => !isBlank c) (trim (cs.dropWhile fun c => !isBlank c)) with
    | .ok line => assembleLine tw line
    | .error e => .error e

/-- The words of a program's lines, in order: "one command per line" (30_encoding.md rule R80). -/
def assembleProgram (tw : ThreshWidth) : List (List Char) → Except AsmError (List Word)
  | [] => .ok []
  | l :: ls =>
    match assembleText tw l, assembleProgram tw ls with
    | .ok ws, .ok rest => .ok (ws ++ rest)
    | .error e, _ => .error e
    | .ok _, .error e => .error e

end Sys2Proof.Machine
end

