-- ==== Sys2Proof/Machine/Reference.lean ====
section
/-! DEFINITION. Machine/Reference.lean: the source's pure decode function over a whole sample sequence, `Decode` of 00_scope.md rule R13 with its three stages, on unbounded naturals; and the folding of the hardware's segmenter over a sequence (40_segmenter.md rule R94). -/

namespace Sys2Proof.Machine

/-- The loop of `Segment` (40_segmenter.md rule R90): the widths emitted from the given previous sample and count on. -/
def segmentFrom : Bool → Nat → List Bool → List Nat
  | _, _, [] => []
  | false, _, true :: rest => segmentFrom true 1 rest
  | true, count, false :: rest => count :: segmentFrom false count rest
  | true, count, true :: rest => segmentFrom true (count + 1) rest
  | false, count, false :: rest => segmentFrom false count rest

/-- `Segment(samples)` (40_segmenter.md rule R90). Its initial count is the free value of 93_implementation_defined.md U3. -/
def segmentOf (samples : List Bool) : List Nat := segmentFrom false Config.initialCount samples

/-- `ClassifyAll(pulses, T)` (41_classifier.md rule R106). -/
def classifyAll (pulses : List Nat) (t : Nat) : List Bool := pulses.map fun w => decide (t < w)

/-- The result of `Decode` (00_scope.md rule R13, 42_frame_decoder.md rule R120). -/
inductive Decoded where
  /-- `Reading(h10, t10)`: humidity and temperature in tenths. -/
  | reading (h10 t10 : Nat)
  /-- `IncompleteFrame(k)`: the bits that were available. -/
  | incompleteFrame (bitsAvailable : Nat)
  /-- `ChecksumMismatch(e, a)`: the expected and the actual checksum. -/
  | checksumMismatch (expected actual : Nat)
  deriving DecidableEq, Repr

/-- `B[j] = sum over i in 0..7 of bits[8j + i] * 2^(7 − i)` (42_frame_decoder.md rule R120, step 2). -/
def byteOfBits (bits : List Bool) (j : Nat) : Nat :=
  ((List.range 8).map fun i => (bits.getD (8 * j + i) false).toNat * 2 ^ (7 - i)).sum

/-- `FrameCheck(bits)` (42_frame_decoder.md rule R120). -/
def frameCheck (bits : List Bool) : Decoded :=
  let expected := (byteOfBits bits 0 + byteOfBits bits 1 + byteOfBits bits 2 + byteOfBits bits 3) % 256
  if bits.length < 40 then .incompleteFrame bits.length
  else if expected ≠ byteOfBits bits 4 then .checksumMismatch expected (byteOfBits bits 4)
  else .reading (10 * byteOfBits bits 0 + byteOfBits bits 1) (10 * byteOfBits bits 2 + byteOfBits bits 3)

/-- `Decode(samples, T) = FrameCheck(ClassifyAll(Segment(samples), T))` (00_scope.md rule R13). -/
def decodeSamples (samples : List Bool) (t : Nat) : Decoded := frameCheck (classifyAll (segmentOf samples) t)

/-- The widths that `SegStep`, folded over a capture's samples, emits (40_segmenter.md rule R94). -/
def hardwareWidths (tw : ThreshWidth) : Bool → BitVec 13 → List Bool → List (BitVec 13)
  | _, _, [] => []
  | prev, runcnt, x :: rest =>
    let seg := segStep tw prev runcnt x
    seg.2.2.toList ++ hardwareWidths tw seg.1 seg.2.1 rest

/-- The number of falling edges of a sample sequence after a previous sample (00_scope.md rule R14). -/
def fallingEdges : Bool → List Bool → Nat
  | _, [] => 0
  | prev, x :: rest => (if prev && !x then 1 else 0) + fallingEdges x rest

end Sys2Proof.Machine
end

