-- ==== Sys2Proof/Safety.lean ====
section
/-! DEFINITION. Safety.lean: the terms claims are stated in: the invariants of 10_state.md rule R45, a step that does not stop, and the cycles of one capture (42_frame_decoder.md rule R128). -/

namespace Sys2Proof.Machine

/-- The invariants of every reachable state (10_state.md rule R45, its numbers in the comments), with the widths of THRESH,
TACT and RUNCNT that rules R22, R26 and R27 give and the model's wider fields must keep (log entry 2). -/
structure State.Inv (s : State) : Prop where
  /-- 1. BITCNT ≤ 40. -/
  bitcnt_le : s.bitcnt.toNat ≤ 40
  /-- 2. If BITCNT < 40, then `ACC[39 − BITCNT : 0] = 0`. -/
  acc_clear : ∀ i, i + s.bitcnt.toNat ≤ 39 → s.acc.getLsbD i = false
  /-- 3. If PREV = 1, then RUNCNT ≥ 1. -/
  runcnt_pos : s.prev = true → 1 ≤ s.runcnt.toNat
  /-- 4. RESULT = NONE if and only if PHASE = CAPTURE. -/
  result_none : s.result = .none ↔ s.phase = .capture
  /-- 5. TACT ≤ TMAX (that TMAX < CMAX is a fact of the build, 00_scope.md rule R7). -/
  tact_le : s.tact.toNat ≤ tmax s.tw
  /-- THRESH is TW bits wide (rule R26). -/
  thresh_le : s.thresh.toNat ≤ tmax s.tw
  /-- RUNCNT is CW bits wide (rule R22). -/
  runcnt_le : s.runcnt.toNat ≤ cmax s.tw

/-- The step goes on to a next state: "No command can stick, hang or fault CORE" (43_control.md rule R146). -/
def goesOn (s : State) : Prop := ∃ t, step s = .next t

/-- The sample a cycle carries, if it carries one (20_memory.md rule R51). -/
def sampleOf (tw : ThreshWidth) (p : PortIn) : Option Bool :=
  if p.rst || !p.cmdValid then none
  else
    match decode tw p.cmd with
    | .ok (.sample x) => some x
    | _ => none

/-- The samples of a sequence of cycles, in order. -/
def samplesOf (tw : ThreshWidth) (ps : List PortIn) : List Bool := ps.filterMap (sampleOf tw)

/-- A cycle that may stand inside a capture: anything but START, END and reset (42_frame_decoder.md rule R128, point 2). -/
def insideCapture (tw : ThreshWidth) (p : PortIn) : Bool :=
  !p.rst && (!p.cmdValid ||
    match decode tw p.cmd with
    | .ok .start => false
    | .ok .endCapture => false
    | _ => true)

/-- A cycle that begins a capture: reset, or START (00_scope.md rule R14). -/
def beginsCapture (tw : ThreshWidth) (p : PortIn) : Bool :=
  p.rst || (p.cmdValid &&
    match decode tw p.cmd with
    | .ok .start => true
    | _ => false)

/-- The state answers `Decode`'s result as 42_frame_decoder.md rules R125 and R128 say: the result code and the payload
registers as READ sees them. -/
def answers (s : State) (d : Decoded) : Prop :=
  (∀ k, d = .incompleteFrame k ↔ s.result = .incomplete ∧ (regRead s 0x1#4).toNat = k) ∧
  (∀ e a, d = .checksumMismatch e a ↔
    s.result = .checksum ∧ (regRead s 0x7#4).toNat / 256 = e ∧ (regRead s 0x7#4).toNat % 256 = a) ∧
  (∀ h t, d = .reading h t ↔ s.result = .ok ∧ (regRead s 0x8#4).toNat = h ∧ (regRead s 0x9#4).toNat = t)

end Sys2Proof.Machine
end

