-- ==== Sys2Proof/Certificates/Slice0/Obligations.lean ====
section
/-! DEFINITION. Certificates/Slice0/Obligations.lean: the statements for the provers, in the order of the spec's files. -/

open Sys2Proof Sys2Proof.Machine

/-! ### Reset and the ports -/

/-- 70_reset_and_hazards.md rule R186: ResetState, in a build of any legal width, what every READ address then returns, and
that START makes the same state where THRESH = 3. Two clauses are no plain rule: the one about START is the spec's own
inference ("ResetState is the state that START produces when THRESH = 3", marked [derived]), and `State.reset` being the
build TW = 8 is THE MODEL'S CHOICE (log entry 1). -/
def Obligations.ResetStateValues : Prop :=
  State.reset = State.resetFor ThreshWidth.standard ∧
  ∀ tw : ThreshWidth,
    (State.resetFor tw).prev = false ∧ (State.resetFor tw).runcnt = 0 ∧ (State.resetFor tw).acc = 0 ∧
    (State.resetFor tw).bitcnt = 0 ∧ (State.resetFor tw).thresh = 3 ∧ (State.resetFor tw).tact = 3 ∧
    (State.resetFor tw).phase = .capture ∧ (State.resetFor tw).result = .none ∧
    (State.resetFor tw).late = false ∧ (State.resetFor tw).illcmd = false ∧
    (∀ a : BitVec 4, regRead (State.resetFor tw) a = if a = 0x2 ∨ a = 0x3 then 0x0003 else 0x0000) ∧
    ∀ s : State, s.tw = tw → s.thresh = 3 → ∃ t, exec .start s = .next t ∧
      t.prev = (State.resetFor tw).prev ∧ t.runcnt = (State.resetFor tw).runcnt ∧
      t.acc = (State.resetFor tw).acc ∧ t.bitcnt = (State.resetFor tw).bitcnt ∧
      t.thresh = (State.resetFor tw).thresh ∧ t.tact = (State.resetFor tw).tact ∧
      t.phase = (State.resetFor tw).phase ∧ t.result = (State.resetFor tw).result ∧
      t.late = (State.resetFor tw).late ∧ t.illcmd = (State.resetFor tw).illcmd

/-- 70_reset_and_hazards.md rule R185 (and R197, which the spec derives from it): a cycle with `rst = 1`, in every state and whatever command is on the port,
gives every element its reset value and drives 0x0000, and the command leaves no trace. -/
def Obligations.ResetCycleLosesCommand : Prop :=
  ∀ (s : State) (p q : PortIn), p.rst = true → q.rst = true →
    clock p s = clock q s ∧
    ∃ t, clock p s = .next t ∧
      t.prev = false ∧ t.runcnt = 0 ∧ t.acc = 0 ∧ t.bitcnt = 0 ∧ t.thresh = 3 ∧ t.tact = 3 ∧
      t.phase = .capture ∧ t.result = .none ∧ t.late = false ∧ t.illcmd = false ∧
      pinsOut t = some { rdata := 0x0000, done := false }

/-- THE MODEL'S CHOICE (log entry 5, after 93_implementation_defined.md U4): before the first reset every cycle without reset
is stuck, and the output pins have no value (70_reset_and_hazards.md rule R187 calls the state unspecified). -/
def Obligations.UnresetMachineIsStuck : Prop :=
  ∀ (s : State) (p : PortIn), s.resetSeen = false → p.rst = false →
    clock p s = .fault .beforeFirstReset ∧ pinsOut s = none

/-- 30_encoding.md rule R65 and 43_control.md rule R144: `rdata` is the register a READ names, as the state before the cycle
holds it, and 0x0000 in every other cycle. -/
def Obligations.RdataOnlyForRead : Prop :=
  ∀ (s t : State) (p : PortIn), clock p s = .next t →
    (∀ a, p.rst = false → p.cmdValid = true → decode s.tw p.cmd = .ok (.read a) → t.rdata = regRead s a) ∧
    ((p.rst = true ∨ p.cmdValid = false ∨ ∀ a, decode s.tw p.cmd ≠ .ok (.read a)) → t.rdata = 0x0000)

/-- 60_exceptions.md rule R166: the `done` output is the level of PHASE: it rises at END, stays through every command, READ
among them, and falls at START or reset. -/
def Obligations.DoneOutputIsPhaseLevel : Prop :=
  ∀ (s t : State) (p : PortIn), clock p s = .next t →
    (∃ v, pinsOut t = some { rdata := v, done := t.phase == .done }) ∧
    (beginsCapture s.tw p = true → doneLevel t = false) ∧
    (p.rst = false → p.cmdValid = true → decode s.tw p.cmd = .ok .endCapture → doneLevel t = true) ∧
    (beginsCapture s.tw p = false → ¬(p.cmdValid = true ∧ decode s.tw p.cmd = .ok .endCapture) →
      doneLevel t = doneLevel s)

/-! ### Encodings -/

/-- 30_encoding.md rule R74: DecodeCmd on every word, by the value `op = w / 4096` of its opcode and `w mod 4096` of its
operand. -/
def Obligations.DecodeEveryWord : Prop :=
  ∀ (tw : ThreshWidth) (w : Word),
    (w.toNat / 4096 = 0 → decode tw w = if w.toNat % 4096 = 0 then .ok .nop else .error .reservedOperandBit) ∧
    (w.toNat / 4096 = 1 → decode tw w =
      if w.toNat % 4096 < 2 then .ok (.sample (decide (w.toNat % 2 = 1))) else .error .reservedOperandBit) ∧
    (w.toNat / 4096 = 2 → decode tw w = if w.toNat % 4096 = 0 then .ok .start else .error .reservedOperandBit) ∧
    (w.toNat / 4096 = 3 → decode tw w = if w.toNat % 4096 = 0 then .ok .endCapture else .error .reservedOperandBit) ∧
    (w.toNat / 4096 = 4 → decode tw w =
      if w.toNat % 4096 < 2 ^ tw.bits then .ok (.wrth (BitVec.ofNat 12 w.toNat)) else .error .reservedOperandBit) ∧
    (w.toNat / 4096 = 5 → decode tw w =
      if w.toNat % 4096 < 16 then .ok (.read (BitVec.ofNat 4 w.toNat)) else .error .reservedOperandBit) ∧
    (6 ≤ w.toNat / 4096 → decode tw w = .error .illegalOpcode)

/-- 30_encoding.md rule R76: a word is a command exactly where it has the match value under the mask of that command's row, and
its operand is the row's field (WRTH's mask is the one for a general TW). That a word is illegal exactly where no row matches
is the spec's own inference ("Exactly one row matches each legal word, and a word that matches no row is illegal", marked
[derived: from rules R67 to R74]). -/
def Obligations.OpcodeMapMatchAndMask : Prop :=
  ∀ (tw : ThreshWidth) (w : Word),
    let wrthMask : Word := 0xF000 ||| (0x0FFF &&& ~~~(BitVec.twoPow 16 tw.bits - 1))
    (decode tw w = .ok .nop ↔ w &&& 0xFFFF = 0x0000) ∧
    (∀ x, decode tw w = .ok (.sample x) ↔ w &&& 0xFFFE = 0x1000 ∧ x = w.getLsbD 0) ∧
    (decode tw w = .ok .start ↔ w &&& 0xFFFF = 0x2000) ∧
    (decode tw w = .ok .endCapture ↔ w &&& 0xFFFF = 0x3000) ∧
    (∀ v, decode tw w = .ok (.wrth v) ↔ w &&& wrthMask = 0x4000 ∧ v.toNat = w.toNat % 2 ^ tw.bits) ∧
    (∀ a, decode tw w = .ok (.read a) ↔ w &&& 0xFFF0 = 0x5000 ∧ a = w.extractLsb' 0 4) ∧
    ((∃ e, decode tw w = .error e) ↔
      w &&& 0xFFFF ≠ 0x0000 ∧ w &&& 0xFFFE ≠ 0x1000 ∧ w &&& 0xFFFF ≠ 0x2000 ∧ w &&& 0xFFFF ≠ 0x3000 ∧
      w &&& wrthMask ≠ 0x4000 ∧ w &&& 0xFFF0 ≠ 0x5000) ∧
    (tw = ThreshWidth.standard → wrthMask = 0xFF00)

/-- The decoder reads back every command the encoding can hold, with every operand (30_encoding.md rules R66 to R74). -/
def Obligations.DecodeEncodeAgree : Prop :=
  ∀ (tw : ThreshWidth) (i : Instr), i.wellFormed tw = true → decode tw (encode i) = .ok i

/-- Every legal word is the encoding of the command it decodes to, which is well-formed: no two words mean one command, and no
bit of a legal word is dropped (30_encoding.md rules R66 to R74). -/
def Obligations.EncodeDecodeAgree : Prop :=
  ∀ (tw : ThreshWidth) (w : Word) (i : Instr), decode tw w = .ok i → encode i = w ∧ i.wellFormed tw = true

/-- Words of 95_test_vectors.md's V-DEC, one of each family, at TW = 8 and TW = 12. -/
def Obligations.SpecWordsDecode : Prop :=
  decodeTableWord 16 0x0000 = some .nop ∧ decodeTableWord 16 0x1000 = some (.sample false) ∧
  decodeTableWord 16 0x1001 = some (.sample true) ∧ decodeTableWord 16 0x2000 = some .start ∧
  decodeTableWord 16 0x3000 = some .endCapture ∧ decodeTableWord 16 0x40FF = some (.wrth 255) ∧
  decodeTableWord 16 0x5009 = some (.read 9) ∧ decodeTableWord 16 0x4100 = none ∧
  decodeTableWord 16 0x1002 = none ∧ decodeTableWord 16 0x7ABC = none ∧
  ∀ tw : ThreshWidth, tw.bits = 12 →
    decode tw 0x4100 = .ok (.wrth 256) ∧ decode tw 0x4FFF = .ok (.wrth 4095) ∧
    decode tw 0x5010 = .error .reservedOperandBit

/-- 30_encoding.md rule R80: the assembler gives illegal words only for `.word`: every word of every other line is a command
of the build. -/
def Obligations.AssemblerEmitsLegalWords : Prop :=
  ∀ (tw : ThreshWidth) (l : AsmLine) (ws : List Word), assembleLine tw l = .ok ws → (∀ w, l ≠ .word w) →
    ∀ w ∈ ws, ∃ i, decode tw w = .ok i

/-! ### The segmenter and SAMPLE -/

/-- 40_segmenter.md rule R91: SegStep in its four cases, with the saturating count in numbers. -/
def Obligations.SegmentStepFourCases : Prop :=
  ∀ (tw : ThreshWidth) (c : BitVec 13),
    segStep tw false c true = (true, 1, none) ∧
    segStep tw true c false = (false, c, some c) ∧
    (∃ c', segStep tw true c true = (true, c', none) ∧
      (c.toNat = 2 ^ (tw.bits + 1) - 1 → c' = c) ∧
      (c.toNat < 2 ^ (tw.bits + 1) - 1 → c'.toNat = c.toNat + 1)) ∧
    segStep tw false c false = (false, c, none)

/-- 40_segmenter.md rule R92: SAMPLE in CAPTURE, its new PREV, RUNCNT, ACC and BITCNT and its frame: the pulse of a falling
edge is one bit, 1 where RUNCNT > TACT, stored at ACC[39 − BITCNT] while BITCNT is below 40; in every state that meets the
invariants a pulse has width at least 1 and a saturated one is a 1; a first high sample after START or reset is a rising
edge. -/
def Obligations.SampleInCapture : Prop :=
  (∀ tw : ThreshWidth, decode tw 0x1000 = .ok (.sample false) ∧ decode tw 0x1001 = .ok (.sample true)) ∧
  (∀ (s : State) (x : Bool), s.phase = .capture → ∃ t, exec (.sample x) s = .next t ∧
    t.prev = x ∧
    (x = true → s.prev = false → t.runcnt = 1) ∧
    (x = true → s.prev = true → s.runcnt.toNat = 2 ^ (s.tw.bits + 1) - 1 → t.runcnt = s.runcnt) ∧
    (x = true → s.prev = true → s.runcnt.toNat ≠ 2 ^ (s.tw.bits + 1) - 1 → t.runcnt = s.runcnt + 1) ∧
    (x = false → t.runcnt = s.runcnt) ∧
    (s.prev = true → x = false → s.bitcnt.toNat < 40 →
      t.bitcnt.toNat = s.bitcnt.toNat + 1 ∧
      ∀ k, k < 40 → t.acc.getLsbD (39 - k) =
        if k = s.bitcnt.toNat then decide (s.tact.toNat < s.runcnt.toNat) else s.acc.getLsbD (39 - k)) ∧
    (¬(s.prev = true ∧ x = false ∧ s.bitcnt.toNat < 40) → t.bitcnt = s.bitcnt ∧ t.acc = s.acc) ∧
    (s.prev = true → x = false → s.Inv → 1 ≤ s.runcnt.toNat) ∧
    (s.runcnt.toNat = 2 ^ (s.tw.bits + 1) - 1 → s.Inv → s.tact.toNat < s.runcnt.toNat) ∧
    t.thresh = s.thresh ∧ t.tact = s.tact ∧ t.phase = s.phase ∧ t.result = s.result ∧ t.late = s.late ∧
    t.illcmd = s.illcmd ∧ t.tw = s.tw ∧ t.resetSeen = s.resetSeen ∧ t.input = s.input ∧ t.rdata = 0x0000) ∧
  (∀ s : State, ∃ t u, exec .start s = .next t ∧ exec (.sample true) t = .next u ∧ u.prev = true ∧ u.runcnt = 1) ∧
  ∀ tw : ThreshWidth, ∃ t u, exec (.sample true) (State.resetFor tw) = .next t ∧
    t.prev = true ∧ t.runcnt = 1 ∧ t.bitcnt = 0 ∧
    exec (.sample false) t = .next u ∧ u.bitcnt = 1 ∧ u.acc.getLsbD 39 = false

/-- 40_segmenter.md rule R93: SAMPLE in DONE sets LATE and changes nothing else, and only START or reset clears LATE. -/
def Obligations.LateSampleOnlySetsLate : Prop :=
  (∀ tw : ThreshWidth, decode tw 0x1000 = .ok (.sample false) ∧ decode tw 0x1001 = .ok (.sample true)) ∧
  (∀ (s : State) (x : Bool), s.phase = .done →
    exec (.sample x) s = .next { s with late := true, rdata := 0x0000 } ∧
    (s.result = .ok → s.prev = false → s.illcmd = false →
      regRead { s with late := true, rdata := 0x0000 } 0x0#4 = 0x000B)) ∧
  ∀ (s t : State) (p : PortIn), clock p s = .next t → s.late = true → t.late = false →
    beginsCapture s.tw p = true

/-- The spec's own inference (40_segmenter.md rule R94, marked [derived]): the widths SegStep emits over a capture's samples are those of the reference Segment, each cut to
CMAX; as many as there are falling edges; none of a trailing high run; each at least 1; and the reference's initial count is
never emitted, whatever it is. -/
def Obligations.SegmenterEmitsReferenceWidths : Prop :=
  ∀ (tw : ThreshWidth) (samples : List Bool),
    (hardwareWidths tw false 0 samples).map BitVec.toNat = (segmentOf samples).map (min · (cmax tw)) ∧
    (segmentOf samples).length = fallingEdges false samples ∧
    (∀ n, segmentOf (samples ++ false :: List.replicate n true) = segmentOf (samples ++ [false]) ∧
      segmentOf (List.replicate n true) = []) ∧
    (∀ w ∈ segmentOf samples, 1 ≤ w) ∧
    ∀ count, segmentFrom false count samples = segmentOf samples

/-- The spec's own inference (40_segmenter.md rule R95, marked [derived]): cutting a width to CMAX changes no classification by a legal threshold, so the bits of the
hardware's widths are `ClassifyAll(Segment(samples), T)` for every capture. -/
def Obligations.SaturationLosesNothing : Prop :=
  ∀ (tw : ThreshWidth) (t : BitVec 12), t.toNat ≤ tmax tw →
    tmax tw < cmax tw ∧
    (∀ w : Nat, classify (BitVec.ofNat 13 (min w (cmax tw))) t = decide (t.toNat < w)) ∧
    ∀ samples : List Bool,
      (hardwareWidths tw false 0 samples).map (classify · t) = classifyAll (segmentOf samples) t.toNat

/-- The spec's own inference (40_segmenter.md rule R97, marked [derived]): a cycle with no SAMPLE, idle or NOP, READ, WRTH or an illegal word, adds nothing to RUNCNT and
ends no run. -/
def Obligations.NoSampleKeepsTheRun : Prop :=
  ∀ (s : State) (p : PortIn), s.resetSeen = true → insideCapture s.tw p = true → sampleOf s.tw p = none →
    ∃ t, clock p s = .next t ∧ t.prev = s.prev ∧ t.runcnt = s.runcnt ∧ t.acc = s.acc ∧ t.bitcnt = s.bitcnt

/-! ### The classifier and the accumulator -/

/-- 41_classifier.md rule R105: a width above the threshold is 1 and any other 0; with the corner cases that the spec derives
from it (rule R107, marked [derived]). -/
def Obligations.ClassifyAgainstThreshold : Prop :=
  (∀ (w : BitVec 13) (t : BitVec 12),
    (classify w t = true ↔ t.toNat < w.toNat) ∧
    (w.toNat = t.toNat → classify w t = false) ∧
    (w.toNat = t.toNat + 1 → classify w t = true) ∧
    (t = 0 → 1 ≤ w.toNat → classify w t = true)) ∧
  ∀ (tw : ThreshWidth) (w : BitVec 13) (t : BitVec 12), t.toNat = 2 ^ tw.bits - 1 →
    (1 ≤ w.toNat → w.toNat ≤ 2 ^ tw.bits - 1 → classify w t = false) ∧
    (2 ^ tw.bits ≤ w.toNat → classify w t = true) ∧
    (w.toNat = cmax tw → classify w t = true)

/-- 41_classifier.md rule R110: AccPush stores one bit at ACC[39 − BITCNT] while BITCNT is below 40 and discards it after. -/
def Obligations.AccPushStoresOneBit : Prop :=
  ∀ (s : State) (b : Bool),
    (s.bitcnt.toNat < 40 →
      (s.accPush b).bitcnt.toNat = s.bitcnt.toNat + 1 ∧
      (s.accPush b).acc.getLsbD (39 - s.bitcnt.toNat) = b ∧
      (∀ i, i ≠ 39 - s.bitcnt.toNat → (s.accPush b).acc.getLsbD i = s.acc.getLsbD i) ∧
      s.accPush b = { s with acc := (s.accPush b).acc, bitcnt := (s.accPush b).bitcnt }) ∧
    (40 ≤ s.bitcnt.toNat → s.accPush b = s)

/-- The spec's own inference (41_classifier.md rule R111, marked [derived]): what the bits of a capture leave in BITCNT and ACC. -/
def Obligations.AccumulatorAfterBits : Prop :=
  ∀ (s : State) (bits : List Bool), s.acc = 0 → s.bitcnt = 0 →
    let t := bits.foldl State.accPush s
    t.bitcnt.toNat = min bits.length 40 ∧
    (∀ k, k < min bits.length 40 → t.acc.getLsbD (39 - k) = bits.getD k false) ∧
    (∀ i, i + min bits.length 40 < 40 → t.acc.getLsbD i = false) ∧
    t = (bits.take 40).foldl State.accPush s

/-! ### The frame decoder and END -/

/-- 42_frame_decoder.md rule R123: END in CAPTURE judges the length first and then the checksum of the bytes as ACC holds
them, and writes PHASE and RESULT alone. -/
def Obligations.EndJudgesTheFrame : Prop :=
  (∀ tw : ThreshWidth, decode tw 0x3000 = .ok .endCapture) ∧
  ∀ s : State, s.phase = .capture →
    let b : Nat → Nat := fun j => s.acc.toNat / 2 ^ (32 - 8 * j) % 256
    let r : Result :=
      if s.bitcnt.toNat < 40 then .incomplete
      else if (b 0 + b 1 + b 2 + b 3) % 256 ≠ b 4 then .checksum
      else .ok
    exec .endCapture s = .next { s with phase := .done, result := r, rdata := 0x0000 } ∧
    doneLevel s = false ∧ doneLevel { s with phase := .done, result := r, rdata := 0x0000 } = true ∧
    (s.bitcnt = 0 → r = .incomplete) ∧
    (s.bitcnt = 40 → s.acc = 0 → r = .ok ∧ hum10 s.acc = 0 ∧ temp10 s.acc = 0) ∧
    (s.bitcnt = 40 → b 0 = 60 → b 1 = 5 → b 2 = 26 → b 3 = 2 → b 4 = 93 →
      r = .ok ∧ hum10 s.acc = 605 ∧ temp10 s.acc = 262)

/-- 42_frame_decoder.md rule R124: END in DONE changes no state, so END, END leaves the STATUS of one END. -/
def Obligations.RepeatedEndChangesNothing : Prop :=
  (∀ s : State, s.phase = .done → exec .endCapture s = .next { s with rdata := 0x0000 }) ∧
  ∀ s : State, ∃ t u, exec .endCapture s = .next t ∧ exec .endCapture t = .next u ∧ regRead u 0x0#4 = regRead t 0x0#4

/-- 42_frame_decoder.md rule R125: what the host reads after END for each of the three outcomes. -/
def Obligations.OutcomeReadFromRegisters : Prop :=
  ∀ s : State, s.phase = .capture → ∃ t, exec .endCapture s = .next t ∧
    let b : Nat → Nat := fun j => s.acc.toNat / 2 ^ (32 - 8 * j) % 256
    let e : Nat := (b 0 + b 1 + b 2 + b 3) % 256
    (t.result = .ok →
      (regRead t 0x0#4).toNat / 2 % 4 = 1 ∧
      (regRead t 0x8#4).toNat = 10 * b 0 + b 1 ∧ (regRead t 0x9#4).toNat = 10 * b 2 + b 3 ∧
      (regRead t 0x5#4).toNat = 256 * b 0 + b 1 ∧ (regRead t 0x6#4).toNat = 256 * b 2 + b 3 ∧
      (regRead t 0x7#4).toNat = 256 * e + b 4) ∧
    (t.result = .incomplete →
      (regRead t 0x0#4).toNat / 2 % 4 = 2 ∧ (regRead t 0x1#4).toNat = s.bitcnt.toNat ∧ s.bitcnt.toNat ≤ 39 ∧
      regRead t 0x8#4 = 0 ∧ regRead t 0x9#4 = 0) ∧
    (t.result = .checksum →
      (regRead t 0x0#4).toNat / 2 % 4 = 3 ∧
      (regRead t 0x7#4).toNat / 256 = e ∧ (regRead t 0x7#4).toNat % 256 = b 4 ∧
      regRead t 0x8#4 = 0 ∧ regRead t 0x9#4 = 0) ∧
    t.result ≠ .none

/-- The spec's own inference (42_frame_decoder.md rule R126, marked [derived]): the checksum is the sum mod 256, and the rule's three frames pass. -/
def Obligations.ChecksumIsModular : Prop :=
  (∀ acc : BitVec 40, (expSum acc).toNat =
    (acc.toNat / 2 ^ 32 % 256 + acc.toNat / 2 ^ 24 % 256 + acc.toNat / 2 ^ 16 % 256 + acc.toNat / 2 ^ 8 % 256) % 256) ∧
  judge 40 0x0000000000 = .ok ∧ judge 40 0xFFFFFFFFFC = .ok ∧ judge 40 0xFF01000000 = .ok

/-- The spec's own inference (42_frame_decoder.md rule R127, marked [derived]): one flipped bit of a checksum-valid frame always ends in CHECKSUM, while setting bit 0 of
byte(0) and clearing bit 0 of byte(1) cancel. -/
def Obligations.SingleFlipIsDetected : Prop :=
  ∀ s : State, s.phase = .capture → judge s.bitcnt s.acc = .ok →
    (∀ i, i < 40 → ∃ t,
      exec .endCapture { s with acc := s.acc ^^^ BitVec.twoPow 40 i } = .next t ∧ t.result = .checksum) ∧
    (s.acc.getLsbD 32 = false → s.acc.getLsbD 24 = true → ∃ t,
      exec .endCapture { s with acc := s.acc ^^^ BitVec.twoPow 40 32 ^^^ BitVec.twoPow 40 24 } = .next t ∧
      t.result = .ok)

/-- The spec's own inference (42_frame_decoder.md rule R129, marked [derived]): whatever follows the 40th bit of a capture, END gives the result, the payload and the frame
it would have given at once. -/
def Obligations.TrailingPulsesIgnored : Prop :=
  ∀ (s : State) (ps : List PortIn), s.resetSeen = true → s.phase = .capture → s.bitcnt = 40 →
    (∀ p ∈ ps, insideCapture s.tw p = true) →
    ∃ t u, runCycles (ps ++ [commandCycle 0x3000]) s = .next t ∧ clock (commandCycle 0x3000) s = .next u ∧
      t.result = u.result ∧ t.acc = u.acc ∧ t.bitcnt = u.bitcnt ∧
      ∀ a ∈ [0x1#4, 0x5#4, 0x6#4, 0x7#4, 0x8#4, 0x9#4], regRead t a = regRead u a

/-- The spec's own inference (70_reset_and_hazards.md rule R194, marked [derived]): an unterminated 40th pulse is lost at END, and one low sample before END keeps it. -/
def Obligations.UnterminatedLastPulseIsLost : Prop :=
  ∀ s : State, s.phase = .capture → s.prev = true → s.bitcnt = 39 →
    (∃ t, exec .endCapture s = .next t ∧ t.result = .incomplete ∧ t.bitcnt = 39) ∧
    ∃ t u, exec (.sample false) s = .next t ∧ exec .endCapture t = .next u ∧ u.bitcnt = 40 ∧
      (u.result = .ok ∨ u.result = .checksum)

/-! ### The control commands and the illegal command -/

/-- 43_control.md rule R141: NOP changes no state and drives 0x0000, and a cycle with `cmd_valid = 0` behaves the same. -/
def Obligations.NopAndIdleChangeNothing : Prop :=
  ∀ s : State,
    exec .nop s = .next { s with rdata := 0x0000 } ∧
    (s.resetSeen = true → clock (commandCycle 0x0000) s = exec .nop s ∧
      ∀ p : PortIn, p.rst = false → p.cmdValid = false → clock p s = exec .nop s)

/-- 43_control.md rule R142: START, in either phase. -/
def Obligations.StartBeginsACapture : Prop :=
  (∀ tw : ThreshWidth, decode tw 0x2000 = .ok .start) ∧
  ∀ s : State, ∃ t, exec .start s = .next t ∧
    t = { s with
      prev := false, runcnt := 0, acc := 0, bitcnt := 0, tact := s.thresh, phase := .capture, result := .none,
      late := false, illcmd := false, rdata := 0x0000 } ∧
    regRead t 0x0#4 = 0x0000 ∧ doneLevel t = false ∧ exec .start t = .next t ∧
    t = { State.resetFor s.tw with
      thresh := s.thresh, tact := s.thresh, resetSeen := s.resetSeen, input := s.input }

/-- 43_control.md rule R143: WRTH v writes THRESH alone, in either phase; the next START takes it, and v = 0 makes every
pulse of that capture a 1; a v above TMAX is the operand of no word. -/
def Obligations.WrthWritesThreshOnly : Prop :=
  ∀ (s : State) (v : BitVec 12),
    (v.toNat ≤ 2 ^ s.tw.bits - 1 →
      decode s.tw (0x4000 ||| v.setWidth 16) = .ok (.wrth v) ∧
      exec (.wrth v) s = .next { s with thresh := v, rdata := 0x0000 } ∧
      ∃ u, exec .start { s with thresh := v, rdata := 0x0000 } = .next u ∧ u.tact = v ∧
        (v = 0 → ∀ w : BitVec 13, 1 ≤ w.toNat → classify w u.tact = true)) ∧
    (2 ^ s.tw.bits - 1 < v.toNat → ∀ w : Word, decode s.tw w ≠ .ok (.wrth v))

/-- THE MODEL'S CHOICE for an operand no word can hold (log entry 6): WRTH moves exactly the low TW bits of its operand into
THRESH and changes nothing else (20_memory.md rule R56). -/
def Obligations.WrthMovesLowBits : Prop :=
  ∀ (s : State) (v : BitVec 12), ∃ t, exec (.wrth v) s = .next t ∧
    t.thresh.toNat = v.toNat % 2 ^ s.tw.bits ∧ t = { s with thresh := t.thresh, rdata := 0x0000 }

/-- 43_control.md rules R144 and R147: READ drives the register's value before the command and changes no state; the value of
each of the 16 addresses, in numbers. -/
def Obligations.ReadReturnsTheRegister : Prop :=
  ∀ s : State,
    let b : Nat → Nat := fun j => s.acc.toNat / 2 ^ (32 - 8 * j) % 256
    (∀ a, exec (.read a) s = .next { s with rdata := regRead s a } ∧
      decode s.tw (0x5000 ||| a.setWidth 16) = .ok (.read a) ∧
      regRead { s with rdata := regRead s a } a = regRead s a) ∧
    (regRead s 0x0#4).toNat = 32 * s.prev.toNat + 16 * s.illcmd.toNat + 8 * s.late.toNat +
      2 * (match s.result with | .none => 0 | .ok => 1 | .incomplete => 2 | .checksum => 3) +
      (match s.phase with | .capture => 0 | .done => 1) ∧
    (regRead s 0x1#4).toNat = s.bitcnt.toNat ∧
    (regRead s 0x2#4).toNat = s.thresh.toNat ∧
    (regRead s 0x3#4).toNat = s.tact.toNat ∧
    (regRead s 0x4#4).toNat = s.runcnt.toNat ∧
    (regRead s 0x5#4).toNat = 256 * b 0 + b 1 ∧
    (regRead s 0x6#4).toNat = 256 * b 2 + b 3 ∧
    (regRead s 0x7#4).toNat = 256 * ((b 0 + b 1 + b 2 + b 3) % 256) + b 4 ∧
    (regRead s 0x8#4).toNat = (if s.result = .ok then 10 * b 0 + b 1 else 0) ∧
    (regRead s 0x9#4).toNat = (if s.result = .ok then 10 * b 2 + b 3 else 0) ∧
    (∀ a : BitVec 4, 0xA ≤ a.toNat → regRead s a = 0x0000) ∧
    (s.result = .ok → s.acc = 0x3C051A025D →
      regRead s 0x5#4 = 0x3C05 ∧ regRead s 0x7#4 = 0x5D5D ∧ regRead s 0x8#4 = 0x025D)

/-- 10_state.md rules R35 to R37 in a build of width TW: the bits of THRESH and TACT from TW up, and of RUNCNT from CW up,
read 0 in every state that meets the invariants (the widths are invariants of the model's wider fields, log entry 2). -/
def Obligations.ReservedBitsReadZero : Prop :=
  ∀ s : State, s.Inv →
    (∀ n, s.tw.bits ≤ n → (regRead s 0x2#4).getLsbD n = false ∧ (regRead s 0x3#4).getLsbD n = false) ∧
    ∀ n, s.tw.bits + 1 ≤ n → (regRead s 0x4#4).getLsbD n = false

/-- 10_state.md rules R41 and R42: HUM10 and TEMP10 read the value in tenths where RESULT = OK, 0x0000 in every other state,
and 0x0000 after reset. -/
def Obligations.ReadingOnlyWhenOk : Prop :=
  (∀ s : State,
    (s.result = .ok →
      (regRead s 0x8#4).toNat = 10 * (frameByte s.acc 0).toNat + (frameByte s.acc 1).toNat ∧
      (regRead s 0x9#4).toNat = 10 * (frameByte s.acc 2).toNat + (frameByte s.acc 3).toNat) ∧
    (s.result ≠ .ok → regRead s 0x8#4 = 0x0000 ∧ regRead s 0x9#4 = 0x0000)) ∧
  ∀ tw : ThreshWidth, regRead (State.resetFor tw) 0x8#4 = 0x0000 ∧ regRead (State.resetFor tw) 0x9#4 = 0x0000

/-- 30_encoding.md rule R72 and 43_control.md rule R145: a word is illegal where its opcode is 6 or more or a reserved operand
bit is 1, and an illegal word sets ILLCMD, drives 0x0000 and changes nothing else, in either phase. -/
def Obligations.IllegalWordOnlySetsIllcmd : Prop :=
  (∀ (s : State) (w : Word), s.resetSeen = true →
    (6 ≤ w.toNat / 4096 ∨
      (w.toNat / 4096 ∈ [0, 2, 3] ∧ w.toNat % 4096 ≠ 0) ∨
      (w.toNat / 4096 = 1 ∧ 2 ≤ w.toNat % 4096) ∨
      (w.toNat / 4096 = 4 ∧ 2 ^ s.tw.bits ≤ w.toNat % 4096) ∨
      (w.toNat / 4096 = 5 ∧ 16 ≤ w.toNat % 4096) ↔ ∃ e, decode s.tw w = .error e) ∧
    ∀ e, decode s.tw w = .error e →
      clock (commandCycle w) s = .next { s with illcmd := true, rdata := 0x0000 }) ∧
  ∃ t, clock (commandCycle 0x6000) State.reset = .next t ∧ regRead t 0x0#4 = 0x0010

/-! ### The step -/

/-- The step runs the command the host's next cycle carries: it takes the cycle off the host's stream and does what `exec`
does; an illegal word there sets ILLCMD. THE MODEL'S CHOICES (log entry 3): the stream is a field of the state, a stream with
no cycle left is an idle port, and withFetchWord puts a command in front of it. -/
def Obligations.StepRunsTheDecodedCommand : Prop :=
  (∀ (s : State) (w : Word) (rest : List PortIn), s.resetSeen = true → s.input = commandCycle w :: rest →
    (∀ i, decode s.tw w = .ok i → step s = exec i { s with input := rest }) ∧
    (∀ e, decode s.tw w = .error e → step s = .next { s with input := rest, illcmd := true, rdata := 0x0000 })) ∧
  (∀ (s : State) (w : Word) (i : Instr), s.resetSeen = true → decode s.tw w = .ok i →
    step (s.withFetchWord 16 w.toNat) = exec i s) ∧
  ∀ s : State, s.resetSeen = true → s.input = [] → step s = .next { s with rdata := 0x0000 }

/-- 43_control.md rule R146: every command completes in every state, and after the first reset every step goes on; a machine
that a step has reached never stops again. -/
def Obligations.StepNeverStops : Prop :=
  (∀ (i : Instr) (s : State), ∃ t, exec i s = .next t ∧ t.resetSeen = s.resetSeen) ∧
  (∀ s : State, s.resetSeen = true → goesOn s) ∧
  ∀ s t : State, step s = .next t → goesOn t

/-- 20_memory.md rule R58: a sequence of cycles means the left fold of the step function over it: as many steps as the host
has cycles give the state the fold gives. -/
def Obligations.RunIsTheFoldOfCycles : Prop :=
  ∀ (ps rest : List PortIn) (s : State),
    Host.Core.run Sys2Proof.core ps.length (s.withInput (ps ++ rest)) = runCycles ps (s.withInput rest)

/-- No step changes the build's TW, un-does the reset, or takes more or less than one cycle of the host's stream (00_scope.md
rule R6, 30_encoding.md rule R65: at most one command is taken per cycle). -/
def Obligations.StepTakesOneCycleAndKeepsTheBuild : Prop :=
  ∀ s t : State, step s = .next t → t.tw = s.tw ∧ t.resetSeen = true ∧ t.input = s.input.tail

/-! ### Whole-machine rules -/

/-- The spec's own inference (10_state.md rule R44, marked [derived]): the only writers of each state element, and what the ones whose cell names a value write. -/
def Obligations.OnlyTheListedWriters : Prop :=
  ∀ (s t : State) (p : PortIn), clock p s = .next t →
    let runs : Instr → Prop := fun i => p.rst = false ∧ p.cmdValid = true ∧ decode s.tw p.cmd = .ok i
    let illegal : Prop := p.rst = false ∧ p.cmdValid = true ∧ ∃ e, decode s.tw p.cmd = .error e
    let begins : Prop := p.rst = true ∨ runs .start
    let samples : Prop := ∃ x, runs (.sample x)
    (¬(samples ∧ s.phase = .capture) → ¬begins →
      t.prev = s.prev ∧ t.runcnt = s.runcnt ∧ t.acc = s.acc ∧ t.bitcnt = s.bitcnt) ∧
    ((∀ v, ¬runs (.wrth v)) → p.rst = false → t.thresh = s.thresh) ∧
    (¬begins → t.tact = s.tact) ∧
    (¬(runs .endCapture ∧ s.phase = .capture) → ¬begins → t.phase = s.phase ∧ t.result = s.result) ∧
    (¬(samples ∧ s.phase = .done) → ¬begins → t.late = s.late) ∧
    (¬illegal → ¬begins → t.illcmd = s.illcmd) ∧
    (∀ x, runs (.sample x) → s.phase = .capture → t.prev = x) ∧
    (samples → s.phase = .done → t.late = true) ∧
    (runs .endCapture → s.phase = .capture → t.phase = .done) ∧
    (∀ v, runs (.wrth v) → t.thresh = v) ∧
    (illegal → t.illcmd = true) ∧
    (begins → t.prev = false ∧ t.runcnt = 0 ∧ t.acc = 0 ∧ t.bitcnt = 0 ∧ t.phase = .capture ∧ t.result = .none ∧
      t.late = false ∧ t.illcmd = false) ∧
    (runs .start → t.tact = s.thresh) ∧
    (p.rst = true → t.thresh = 3 ∧ t.tact = 3)

/-- 10_state.md rules R30 and R31: what sets and what clears the two sticky flags, in every cycle. -/
def Obligations.StickyFlags : Prop :=
  ∀ (s t : State) (p : PortIn), clock p s = .next t →
    t.late = (!beginsCapture s.tw p && (s.late || ((sampleOf s.tw p).isSome && s.phase == .done))) ∧
    (t.illcmd = true ↔ beginsCapture s.tw p = false ∧
      (s.illcmd = true ∨ (p.cmdValid = true ∧ ∃ e, decode s.tw p.cmd = .error e)))

/-- 10_state.md rule R28 and 60_exceptions.md rule R167: START and reset are the only ways out of DONE; until then the result,
the frame and the segmenter are frozen, whatever the host issues. -/
def Obligations.DoneIsLeftByStartOrResetOnly : Prop :=
  ∀ (s : State) (ps : List PortIn), s.resetSeen = true → s.phase = .done →
    (∀ p ∈ ps, beginsCapture s.tw p = false) →
    ∃ t, runCycles ps s = .next t ∧ t.phase = .done ∧ t.result = s.result ∧ t.acc = s.acc ∧ t.bitcnt = s.bitcnt ∧
      t.prev = s.prev ∧ t.runcnt = s.runcnt ∧ t.tact = s.tact

/-- The spec's own inference (70_reset_and_hazards.md rule R192, marked [derived]): a WRTH does not change the capture under way: until the next START or reset the
capture goes as if the WRTH had not been issued, and START takes the new threshold. -/
def Obligations.ThresholdWaitsForStart : Prop :=
  ∀ (s : State) (v : BitVec 12) (ps : List PortIn), s.resetSeen = true → v.toNat ≤ tmax s.tw →
    (∀ p ∈ ps, beginsCapture s.tw p = false) →
    (∃ t u, runCycles (commandCycle (encode (.wrth v)) :: ps) s = .next t ∧ runCycles ps s = .next u ∧
      t.tact = s.tact ∧ u.tact = s.tact ∧ t.prev = u.prev ∧ t.runcnt = u.runcnt ∧ t.acc = u.acc ∧
      t.bitcnt = u.bitcnt ∧ t.phase = u.phase ∧ t.result = u.result ∧ t.late = u.late ∧ t.illcmd = u.illcmd) ∧
    ∃ t, runCycles [commandCycle (encode (.wrth v)), commandCycle (encode .start)] s = .next t ∧ t.tact = v

/-- The spec's own inference (10_state.md rule R45, marked [derived]): the invariants hold after reset, in a build of any legal width. -/
def Obligations.InvariantsHoldAtReset : Prop := State.reset.Inv ∧ ∀ tw : ThreshWidth, (State.resetFor tw).Inv

/-- The spec's own inference (10_state.md rule R45, marked [derived]), with the widths of log entry 2: every step keeps the invariants, from every state that meets them. -/
def Obligations.StepKeepsInvariants : Prop := ∀ s t : State, s.Inv → step s = .next t → t.Inv

/-! ### The hardware and the source's decoder -/

/-- The spec's own inference (42_frame_decoder.md rule R128, marked [derived]): a capture that begins with START while THRESH = T, or with reset where T = 3, carries the
samples σ among any other commands that are no START, END or reset, and ends with END, answers `Decode(σ, T)` exactly. -/
def Obligations.CaptureAnswersDecode : Prop :=
  ∀ (s : State) (p : PortIn) (ps : List PortIn) (t : Nat), t ≤ tmax s.tw →
    (p = commandCycle 0x2000 ∧ s.resetSeen = true ∧ s.thresh.toNat = t ∨ p.rst = true ∧ t = 3) →
    (∀ q ∈ ps, insideCapture s.tw q = true) →
    ∃ u, runCycles (p :: ps ++ [commandCycle 0x3000]) s = .next u ∧
      answers u (decodeSamples (samplesOf s.tw ps) t)

/-- The spec's own inference (42_frame_decoder.md rule R130, marked [derived]): the samples SENDFRAME synthesises from any five bytes with a valid checksum, at any
threshold from 1 to TMAX, decode to those bytes. -/
def Obligations.SendFrameRoundTrip : Prop :=
  ∀ (s : State) (b0 b1 b2 b3 : Byte) (t : Nat), s.resetSeen = true → 1 ≤ t → t ≤ tmax s.tw → s.thresh.toNat = t →
    let b4 : Byte := b0 + b1 + b2 + b3
    let frame : List Instr := sendFrameCmds t [b0, b1, b2, b3, b4]
    ∃ u, runCycles ((Instr.start :: frame ++ [Instr.endCapture]).map fun i => commandCycle (encode i)) s = .next u ∧
      u.result = .ok ∧ regRead u 0x5#4 = b0 ++ b1 ∧ regRead u 0x6#4 = b2 ++ b3 ∧ regRead u 0x7#4 = b4 ++ b4 ∧
      (regRead u 0x8#4).toNat = 10 * b0.toNat + b1.toNat ∧ (regRead u 0x9#4).toNat = 10 * b2.toNat + b3.toNat
end

