-- ==== Sys2Proof/Laws/State.lean ====
section
/-! SUPPORT. Laws/State.lean: one lemma per field of State per named update, so that no proof unfolds a record update. -/

namespace Sys2Proof.Machine

@[simp] theorem State.drive_tw (s : State) (v : Word) : (s.drive v).tw = s.tw := rfl
@[simp] theorem State.drive_resetSeen (s : State) (v : Word) : (s.drive v).resetSeen = s.resetSeen := rfl
@[simp] theorem State.drive_prev (s : State) (v : Word) : (s.drive v).prev = s.prev := rfl
@[simp] theorem State.drive_runcnt (s : State) (v : Word) : (s.drive v).runcnt = s.runcnt := rfl
@[simp] theorem State.drive_acc (s : State) (v : Word) : (s.drive v).acc = s.acc := rfl
@[simp] theorem State.drive_bitcnt (s : State) (v : Word) : (s.drive v).bitcnt = s.bitcnt := rfl
@[simp] theorem State.drive_thresh (s : State) (v : Word) : (s.drive v).thresh = s.thresh := rfl
@[simp] theorem State.drive_tact (s : State) (v : Word) : (s.drive v).tact = s.tact := rfl
@[simp] theorem State.drive_phase (s : State) (v : Word) : (s.drive v).phase = s.phase := rfl
@[simp] theorem State.drive_result (s : State) (v : Word) : (s.drive v).result = s.result := rfl
@[simp] theorem State.drive_late (s : State) (v : Word) : (s.drive v).late = s.late := rfl
@[simp] theorem State.drive_illcmd (s : State) (v : Word) : (s.drive v).illcmd = s.illcmd := rfl
@[simp] theorem State.drive_rdata (s : State) (v : Word) : (s.drive v).rdata = v := rfl
@[simp] theorem State.drive_input (s : State) (v : Word) : (s.drive v).input = s.input := rfl

@[simp] theorem State.setThresh_tw (s : State) (v : BitVec 12) : (s.setThresh v).tw = s.tw := rfl
@[simp] theorem State.setThresh_resetSeen (s : State) (v : BitVec 12) : (s.setThresh v).resetSeen = s.resetSeen := rfl
@[simp] theorem State.setThresh_prev (s : State) (v : BitVec 12) : (s.setThresh v).prev = s.prev := rfl
@[simp] theorem State.setThresh_runcnt (s : State) (v : BitVec 12) : (s.setThresh v).runcnt = s.runcnt := rfl
@[simp] theorem State.setThresh_acc (s : State) (v : BitVec 12) : (s.setThresh v).acc = s.acc := rfl
@[simp] theorem State.setThresh_bitcnt (s : State) (v : BitVec 12) : (s.setThresh v).bitcnt = s.bitcnt := rfl
@[simp] theorem State.setThresh_thresh (s : State) (v : BitVec 12) : (s.setThresh v).thresh = v := rfl
@[simp] theorem State.setThresh_tact (s : State) (v : BitVec 12) : (s.setThresh v).tact = s.tact := rfl
@[simp] theorem State.setThresh_phase (s : State) (v : BitVec 12) : (s.setThresh v).phase = s.phase := rfl
@[simp] theorem State.setThresh_result (s : State) (v : BitVec 12) : (s.setThresh v).result = s.result := rfl
@[simp] theorem State.setThresh_late (s : State) (v : BitVec 12) : (s.setThresh v).late = s.late := rfl
@[simp] theorem State.setThresh_illcmd (s : State) (v : BitVec 12) : (s.setThresh v).illcmd = s.illcmd := rfl
@[simp] theorem State.setThresh_rdata (s : State) (v : BitVec 12) : (s.setThresh v).rdata = s.rdata := rfl
@[simp] theorem State.setThresh_input (s : State) (v : BitVec 12) : (s.setThresh v).input = s.input := rfl

@[simp] theorem State.setSegmenter_tw (s : State) (p : Bool) (c : BitVec 13) : (s.setSegmenter p c).tw = s.tw := rfl
@[simp] theorem State.setSegmenter_resetSeen (s : State) (p : Bool) (c : BitVec 13) :
    (s.setSegmenter p c).resetSeen =
      s.resetSeen := rfl
@[simp] theorem State.setSegmenter_prev (s : State) (p : Bool) (c : BitVec 13) : (s.setSegmenter p c).prev = p := rfl
@[simp] theorem State.setSegmenter_runcnt (s : State) (p : Bool) (c : BitVec 13) :
    (s.setSegmenter p c).runcnt =
      c := rfl
@[simp] theorem State.setSegmenter_acc (s : State) (p : Bool) (c : BitVec 13) :
    (s.setSegmenter p c).acc =
      s.acc := rfl
@[simp] theorem State.setSegmenter_bitcnt (s : State) (p : Bool) (c : BitVec 13) :
    (s.setSegmenter p c).bitcnt =
      s.bitcnt := rfl
@[simp] theorem State.setSegmenter_thresh (s : State) (p : Bool) (c : BitVec 13) :
    (s.setSegmenter p c).thresh =
      s.thresh := rfl
@[simp] theorem State.setSegmenter_tact (s : State) (p : Bool) (c : BitVec 13) :
    (s.setSegmenter p c).tact =
      s.tact := rfl
@[simp] theorem State.setSegmenter_phase (s : State) (p : Bool) (c : BitVec 13) :
    (s.setSegmenter p c).phase =
      s.phase := rfl
@[simp] theorem State.setSegmenter_result (s : State) (p : Bool) (c : BitVec 13) :
    (s.setSegmenter p c).result =
      s.result := rfl
@[simp] theorem State.setSegmenter_late (s : State) (p : Bool) (c : BitVec 13) :
    (s.setSegmenter p c).late =
      s.late := rfl
@[simp] theorem State.setSegmenter_illcmd (s : State) (p : Bool) (c : BitVec 13) :
    (s.setSegmenter p c).illcmd =
      s.illcmd := rfl
@[simp] theorem State.setSegmenter_rdata (s : State) (p : Bool) (c : BitVec 13) :
    (s.setSegmenter p c).rdata =
      s.rdata := rfl
@[simp] theorem State.setSegmenter_input (s : State) (p : Bool) (c : BitVec 13) :
    (s.setSegmenter p c).input =
      s.input := rfl

@[simp] theorem State.accPush_tw (s : State) (b : Bool) : (s.accPush b).tw = s.tw := rfl
@[simp] theorem State.accPush_resetSeen (s : State) (b : Bool) : (s.accPush b).resetSeen = s.resetSeen := rfl
@[simp] theorem State.accPush_prev (s : State) (b : Bool) : (s.accPush b).prev = s.prev := rfl
@[simp] theorem State.accPush_runcnt (s : State) (b : Bool) : (s.accPush b).runcnt = s.runcnt := rfl
theorem State.accPush_acc (s : State) (b : Bool) :
    (s.accPush b).acc =
      if s.bitcnt.toNat < 40 then writeBit s.acc (39 - s.bitcnt.toNat) b else s.acc := rfl
theorem State.accPush_bitcnt (s : State) (b : Bool) :
    (s.accPush b).bitcnt =
      if s.bitcnt.toNat < 40 then s.bitcnt + 1 else s.bitcnt := rfl
@[simp] theorem State.accPush_thresh (s : State) (b : Bool) : (s.accPush b).thresh = s.thresh := rfl
@[simp] theorem State.accPush_tact (s : State) (b : Bool) : (s.accPush b).tact = s.tact := rfl
@[simp] theorem State.accPush_phase (s : State) (b : Bool) : (s.accPush b).phase = s.phase := rfl
@[simp] theorem State.accPush_result (s : State) (b : Bool) : (s.accPush b).result = s.result := rfl
@[simp] theorem State.accPush_late (s : State) (b : Bool) : (s.accPush b).late = s.late := rfl
@[simp] theorem State.accPush_illcmd (s : State) (b : Bool) : (s.accPush b).illcmd = s.illcmd := rfl
@[simp] theorem State.accPush_rdata (s : State) (b : Bool) : (s.accPush b).rdata = s.rdata := rfl
@[simp] theorem State.accPush_input (s : State) (b : Bool) : (s.accPush b).input = s.input := rfl

@[simp] theorem State.recordResult_tw (s : State) (r : Result) : (s.recordResult r).tw = s.tw := rfl
@[simp] theorem State.recordResult_resetSeen (s : State) (r : Result) :
    (s.recordResult r).resetSeen =
      s.resetSeen := rfl
@[simp] theorem State.recordResult_prev (s : State) (r : Result) : (s.recordResult r).prev = s.prev := rfl
@[simp] theorem State.recordResult_runcnt (s : State) (r : Result) : (s.recordResult r).runcnt = s.runcnt := rfl
@[simp] theorem State.recordResult_acc (s : State) (r : Result) : (s.recordResult r).acc = s.acc := rfl
@[simp] theorem State.recordResult_bitcnt (s : State) (r : Result) : (s.recordResult r).bitcnt = s.bitcnt := rfl
@[simp] theorem State.recordResult_thresh (s : State) (r : Result) : (s.recordResult r).thresh = s.thresh := rfl
@[simp] theorem State.recordResult_tact (s : State) (r : Result) : (s.recordResult r).tact = s.tact := rfl
@[simp] theorem State.recordResult_phase (s : State) (r : Result) : (s.recordResult r).phase = .done := rfl
@[simp] theorem State.recordResult_result (s : State) (r : Result) : (s.recordResult r).result = r := rfl
@[simp] theorem State.recordResult_late (s : State) (r : Result) : (s.recordResult r).late = s.late := rfl
@[simp] theorem State.recordResult_illcmd (s : State) (r : Result) : (s.recordResult r).illcmd = s.illcmd := rfl
@[simp] theorem State.recordResult_rdata (s : State) (r : Result) : (s.recordResult r).rdata = s.rdata := rfl
@[simp] theorem State.recordResult_input (s : State) (r : Result) : (s.recordResult r).input = s.input := rfl

@[simp] theorem State.beginCapture_tw (s : State) : (s.beginCapture).tw = s.tw := rfl
@[simp] theorem State.beginCapture_resetSeen (s : State) : (s.beginCapture).resetSeen = s.resetSeen := rfl
@[simp] theorem State.beginCapture_prev (s : State) : (s.beginCapture).prev = false := rfl
@[simp] theorem State.beginCapture_runcnt (s : State) : (s.beginCapture).runcnt = 0 := rfl
@[simp] theorem State.beginCapture_acc (s : State) : (s.beginCapture).acc = 0 := rfl
@[simp] theorem State.beginCapture_bitcnt (s : State) : (s.beginCapture).bitcnt = 0 := rfl
@[simp] theorem State.beginCapture_thresh (s : State) : (s.beginCapture).thresh = s.thresh := rfl
@[simp] theorem State.beginCapture_tact (s : State) : (s.beginCapture).tact = s.thresh := rfl
@[simp] theorem State.beginCapture_phase (s : State) : (s.beginCapture).phase = .capture := rfl
@[simp] theorem State.beginCapture_result (s : State) : (s.beginCapture).result = .none := rfl
@[simp] theorem State.beginCapture_late (s : State) : (s.beginCapture).late = false := rfl
@[simp] theorem State.beginCapture_illcmd (s : State) : (s.beginCapture).illcmd = false := rfl
@[simp] theorem State.beginCapture_rdata (s : State) : (s.beginCapture).rdata = s.rdata := rfl
@[simp] theorem State.beginCapture_input (s : State) : (s.beginCapture).input = s.input := rfl

@[simp] theorem State.raiseLate_tw (s : State) : (s.raiseLate).tw = s.tw := rfl
@[simp] theorem State.raiseLate_resetSeen (s : State) : (s.raiseLate).resetSeen = s.resetSeen := rfl
@[simp] theorem State.raiseLate_prev (s : State) : (s.raiseLate).prev = s.prev := rfl
@[simp] theorem State.raiseLate_runcnt (s : State) : (s.raiseLate).runcnt = s.runcnt := rfl
@[simp] theorem State.raiseLate_acc (s : State) : (s.raiseLate).acc = s.acc := rfl
@[simp] theorem State.raiseLate_bitcnt (s : State) : (s.raiseLate).bitcnt = s.bitcnt := rfl
@[simp] theorem State.raiseLate_thresh (s : State) : (s.raiseLate).thresh = s.thresh := rfl
@[simp] theorem State.raiseLate_tact (s : State) : (s.raiseLate).tact = s.tact := rfl
@[simp] theorem State.raiseLate_phase (s : State) : (s.raiseLate).phase = s.phase := rfl
@[simp] theorem State.raiseLate_result (s : State) : (s.raiseLate).result = s.result := rfl
@[simp] theorem State.raiseLate_late (s : State) : (s.raiseLate).late = true := rfl
@[simp] theorem State.raiseLate_illcmd (s : State) : (s.raiseLate).illcmd = s.illcmd := rfl
@[simp] theorem State.raiseLate_rdata (s : State) : (s.raiseLate).rdata = s.rdata := rfl
@[simp] theorem State.raiseLate_input (s : State) : (s.raiseLate).input = s.input := rfl

@[simp] theorem State.raiseIllcmd_tw (s : State) : (s.raiseIllcmd).tw = s.tw := rfl
@[simp] theorem State.raiseIllcmd_resetSeen (s : State) : (s.raiseIllcmd).resetSeen = s.resetSeen := rfl
@[simp] theorem State.raiseIllcmd_prev (s : State) : (s.raiseIllcmd).prev = s.prev := rfl
@[simp] theorem State.raiseIllcmd_runcnt (s : State) : (s.raiseIllcmd).runcnt = s.runcnt := rfl
@[simp] theorem State.raiseIllcmd_acc (s : State) : (s.raiseIllcmd).acc = s.acc := rfl
@[simp] theorem State.raiseIllcmd_bitcnt (s : State) : (s.raiseIllcmd).bitcnt = s.bitcnt := rfl
@[simp] theorem State.raiseIllcmd_thresh (s : State) : (s.raiseIllcmd).thresh = s.thresh := rfl
@[simp] theorem State.raiseIllcmd_tact (s : State) : (s.raiseIllcmd).tact = s.tact := rfl
@[simp] theorem State.raiseIllcmd_phase (s : State) : (s.raiseIllcmd).phase = s.phase := rfl
@[simp] theorem State.raiseIllcmd_result (s : State) : (s.raiseIllcmd).result = s.result := rfl
@[simp] theorem State.raiseIllcmd_late (s : State) : (s.raiseIllcmd).late = s.late := rfl
@[simp] theorem State.raiseIllcmd_illcmd (s : State) : (s.raiseIllcmd).illcmd = true := rfl
@[simp] theorem State.raiseIllcmd_rdata (s : State) : (s.raiseIllcmd).rdata = s.rdata := rfl
@[simp] theorem State.raiseIllcmd_input (s : State) : (s.raiseIllcmd).input = s.input := rfl

@[simp] theorem State.withInput_tw (s : State) (ps : List PortIn) : (s.withInput ps).tw = s.tw := rfl
@[simp] theorem State.withInput_resetSeen (s : State) (ps : List PortIn) :
    (s.withInput ps).resetSeen =
      s.resetSeen := rfl
@[simp] theorem State.withInput_prev (s : State) (ps : List PortIn) : (s.withInput ps).prev = s.prev := rfl
@[simp] theorem State.withInput_runcnt (s : State) (ps : List PortIn) : (s.withInput ps).runcnt = s.runcnt := rfl
@[simp] theorem State.withInput_acc (s : State) (ps : List PortIn) : (s.withInput ps).acc = s.acc := rfl
@[simp] theorem State.withInput_bitcnt (s : State) (ps : List PortIn) : (s.withInput ps).bitcnt = s.bitcnt := rfl
@[simp] theorem State.withInput_thresh (s : State) (ps : List PortIn) : (s.withInput ps).thresh = s.thresh := rfl
@[simp] theorem State.withInput_tact (s : State) (ps : List PortIn) : (s.withInput ps).tact = s.tact := rfl
@[simp] theorem State.withInput_phase (s : State) (ps : List PortIn) : (s.withInput ps).phase = s.phase := rfl
@[simp] theorem State.withInput_result (s : State) (ps : List PortIn) : (s.withInput ps).result = s.result := rfl
@[simp] theorem State.withInput_late (s : State) (ps : List PortIn) : (s.withInput ps).late = s.late := rfl
@[simp] theorem State.withInput_illcmd (s : State) (ps : List PortIn) : (s.withInput ps).illcmd = s.illcmd := rfl
@[simp] theorem State.withInput_rdata (s : State) (ps : List PortIn) : (s.withInput ps).rdata = s.rdata := rfl
@[simp] theorem State.withInput_input (s : State) (ps : List PortIn) : (s.withInput ps).input = ps := rfl

@[simp] theorem State.toReset_tw (s : State) : (s.toReset).tw = s.tw := rfl
@[simp] theorem State.toReset_resetSeen (s : State) : (s.toReset).resetSeen = true := rfl
@[simp] theorem State.toReset_prev (s : State) : (s.toReset).prev = false := rfl
@[simp] theorem State.toReset_runcnt (s : State) : (s.toReset).runcnt = 0 := rfl
@[simp] theorem State.toReset_acc (s : State) : (s.toReset).acc = 0 := rfl
@[simp] theorem State.toReset_bitcnt (s : State) : (s.toReset).bitcnt = 0 := rfl
@[simp] theorem State.toReset_thresh (s : State) : (s.toReset).thresh = 3 := rfl
@[simp] theorem State.toReset_tact (s : State) : (s.toReset).tact = 3 := rfl
@[simp] theorem State.toReset_phase (s : State) : (s.toReset).phase = .capture := rfl
@[simp] theorem State.toReset_result (s : State) : (s.toReset).result = .none := rfl
@[simp] theorem State.toReset_late (s : State) : (s.toReset).late = false := rfl
@[simp] theorem State.toReset_illcmd (s : State) : (s.toReset).illcmd = false := rfl
@[simp] theorem State.toReset_rdata (s : State) : (s.toReset).rdata = 0 := rfl
@[simp] theorem State.toReset_input (s : State) : (s.toReset).input = s.input := rfl

end Sys2Proof.Machine
end

