-- ==== Sys2Proof/Laws/Ops.lean ====
section
/-! SUPPORT. Laws/Ops.lean: what each shared operation can do, once: the frame bytes and the derived values in numbers, the bit write, the segmenter step, END's judgement, and the register reads. -/

namespace Sys2Proof.Machine

/-! ### Parameters -/

/-- CMAX > TMAX for every legal TW (00_scope.md rule R7). -/
theorem tmax_lt_cmax (tw : ThreshWidth) : tmax tw < cmax tw := by
  have h : 0 < 2 ^ tw.bits := Nat.two_pow_pos _
  simp only [tmax, cmax, Nat.pow_succ]
  omega

/-- The widest build has TW = 12, so CMAX fits the 13 bits RUNCNT is held in. -/
theorem cmax_lt (tw : ThreshWidth) : cmax tw < 2 ^ 13 := by
  have h : 2 ^ (tw.bits + 1) ≤ 2 ^ 13 := Nat.pow_le_pow_right (by decide) (by have := tw.le_twelve; omega)
  have h' : 0 < 2 ^ (tw.bits + 1) := Nat.two_pow_pos _
  simp only [cmax]
  omega

/-- The reference threshold 3 is legal in every build, and a count of 1 is below CMAX. -/
theorem three_le_tmax (tw : ThreshWidth) : 3 ≤ tmax tw := by
  have h : 2 ^ 2 ≤ 2 ^ tw.bits := Nat.pow_le_pow_right (by decide) tw.two_le
  simp only [tmax]
  omega

/-! ### The segmenter step and the classifier -/

/-- The segmenter's new PREV is the sample (40_segmenter.md rule R91). -/
@[simp] theorem segStep_prev (tw : ThreshWidth) (prev x : Bool) (c : BitVec 13) : (segStep tw prev c x).1 = x := by
  cases prev <;> cases x <;> rfl

@[simp] theorem segStep_rise (tw : ThreshWidth) (c : BitVec 13) : segStep tw false c true = (true, 1, none) := rfl
@[simp] theorem segStep_fall (tw : ThreshWidth) (c : BitVec 13) : segStep tw true c false = (false, c, some c) := rfl
@[simp] theorem segStep_high (tw : ThreshWidth) (c : BitVec 13) :
    segStep tw true c true = (true, satInc tw c, none) := rfl
@[simp] theorem segStep_low (tw : ThreshWidth) (c : BitVec 13) : segStep tw false c false = (false, c, none) := rfl

/-- A saturating increment in numbers: at most CMAX stays at most CMAX. -/
theorem satInc_toNat (tw : ThreshWidth) (c : BitVec 13) (h : c.toNat ≤ cmax tw) :
    (satInc tw c).toNat = min (c.toNat + 1) (cmax tw) := by
  have := cmax_lt tw
  unfold satInc
  split <;> rename_i h'
  · omega
  · rw [BitVec.toNat_add]
    have : (1 : BitVec 13).toNat = 1 := rfl
    omega

/-! ### The accumulator -/

/-- The bit write, bit by bit. -/
theorem getLsbD_writeBit (x : BitVec 40) (i j : Nat) (b : Bool) (hi : i < 40) :
    (writeBit x i b).getLsbD j = if j = i then b else x.getLsbD j := by
  cases b <;> simp [writeBit, BitVec.getLsbD_twoPow]
  · by_cases hj : j = i
    · subst hj; simp
    · by_cases h40 : j < 40
      · simp [hj, h40, Ne.symm hj]
      · simp [hj, BitVec.getLsbD_of_ge _ _ (Nat.le_of_not_lt h40)]
  · by_cases hj : j = i
    · subst hj; simp [hi]
    · simp [hj, Ne.symm hj]

/-- A frame byte in numbers (10_state.md rule R24). -/
theorem frameByte_toNat (acc : BitVec 40) (j : Fin 5) :
    (frameByte acc j).toNat = acc.toNat / 2 ^ (32 - 8 * j.val) % 256 := by
  simp [frameByte, Nat.shiftRight_eq_div_pow]

/-- EXPSUM in numbers (10_state.md rule R32). -/
theorem expSum_toNat (acc : BitVec 40) :
    (expSum acc).toNat = (acc.toNat / 2 ^ 32 % 256 + acc.toNat / 2 ^ 24 % 256 + acc.toNat / 2 ^ 16 % 256
      + acc.toNat / 2 ^ 8 % 256) % 256 := by
  have h0 := frameByte_toNat acc 0
  have h1 := frameByte_toNat acc 1
  have h2 := frameByte_toNat acc 2
  have h3 := frameByte_toNat acc 3
  simp only [expSum, BitVec.toNat_add, h0, h1, h2, h3]
  norm_num
  omega

/-- A value in tenths never wraps its 12 bits: it is at most 2805 (10_state.md rule R32). -/
theorem inTenths_toNat (whole tenths : Byte) : (inTenths whole tenths).toNat = 10 * whole.toNat + tenths.toNat := by
  have h1 := whole.isLt
  have h2 := tenths.isLt
  simp only [inTenths, BitVec.toNat_ofNat]
  omega

/-- AccPush leaves everything but ACC and BITCNT. -/
theorem accPush_frame (s : State) (b : Bool) :
    s.accPush b = { s with acc := (s.accPush b).acc, bitcnt := (s.accPush b).bitcnt } := rfl

/-- A full accumulator discards the bit (41_classifier.md rule R110, the else branch). -/
theorem accPush_full (s : State) (b : Bool) (h : 40 ≤ s.bitcnt.toNat) : s.accPush b = s := by
  simp [State.accPush, Nat.not_lt.mpr h]

/-- The count after a push that is stored. -/
theorem accPush_bitcnt_toNat (s : State) (b : Bool) (h : s.bitcnt.toNat < 40) :
    (s.accPush b).bitcnt.toNat = s.bitcnt.toNat + 1 := by
  have : (1 : BitVec 6).toNat = 1 := rfl
  simp only [State.accPush_bitcnt, if_pos h, BitVec.toNat_add]
  omega

/-- The accumulator's bits after a push that is stored. -/
theorem accPush_getLsbD (s : State) (b : Bool) (i : Nat) (h : s.bitcnt.toNat < 40) :
    (s.accPush b).acc.getLsbD i = if i = 39 - s.bitcnt.toNat then b else s.acc.getLsbD i := by
  simp only [State.accPush_acc, if_pos h]
  exact getLsbD_writeBit _ _ _ _ (by omega)

/-! ### END's judgement -/

/-- The judgement in numbers (42_frame_decoder.md rule R123). -/
theorem judge_eq (bitcnt : BitVec 6) (acc : BitVec 40) :
    judge bitcnt acc =
      if bitcnt.toNat < 40 then .incomplete
      else if (acc.toNat / 2 ^ 32 % 256 + acc.toNat / 2 ^ 24 % 256 + acc.toNat / 2 ^ 16 % 256
        + acc.toNat / 2 ^ 8 % 256) % 256 ≠ acc.toNat % 256 then .checksum
      else .ok := by
  have h4 := frameByte_toNat acc 4
  have he := expSum_toNat acc
  have hz : 2 ^ (32 - 8 * (4 : Fin 5).val) = 1 := rfl
  rw [hz, Nat.div_one] at h4
  unfold judge
  simp only [ne_eq, ← BitVec.toNat_inj, h4, he]

/-- The judgement is never "no result" (42_frame_decoder.md rule R123). -/
theorem judge_ne_none (bitcnt : BitVec 6) (acc : BitVec 40) : judge bitcnt acc ≠ .none := by
  unfold judge
  split
  · decide
  · split <;> decide

/-- OK in terms of the two tests (60_exceptions.md rule R164). -/
theorem judge_ok_iff (bitcnt : BitVec 6) (acc : BitVec 40) :
    judge bitcnt acc = .ok ↔ 40 ≤ bitcnt.toNat ∧ expSum acc = frameByte acc 4 := by
  unfold judge
  by_cases h : bitcnt.toNat < 40
  · simp [h]
  · by_cases h2 : expSum acc = frameByte acc 4
    · simp [h, h2]; omega
    · simp [h, h2]

/-- CHECKSUM in terms of the two tests (60_exceptions.md rule R164). -/
theorem judge_checksum_iff (bitcnt : BitVec 6) (acc : BitVec 40) :
    judge bitcnt acc = .checksum ↔ 40 ≤ bitcnt.toNat ∧ expSum acc ≠ frameByte acc 4 := by
  unfold judge
  by_cases h : bitcnt.toNat < 40
  · simp [h]
  · by_cases h2 : expSum acc = frameByte acc 4
    · simp [h, h2]
    · simp [h, h2]; omega

/-! ### The operand of WRTH -/

/-- WRTH's value is its operand mod 2^TW (30_encoding.md rule R75). -/
theorem threshOperand_toNat (tw : ThreshWidth) (v : BitVec 12) :
    (threshOperand tw v).toNat = v.toNat % 2 ^ tw.bits := by
  have h : 2 ^ tw.bits ≤ 2 ^ 12 := Nat.pow_le_pow_right (by decide) tw.le_twelve
  have h' : v.toNat % 2 ^ tw.bits < 2 ^ tw.bits := Nat.mod_lt _ (Nat.two_pow_pos _)
  simp only [threshOperand, BitVec.toNat_setWidth]
  exact Nat.mod_eq_of_lt (by omega)

/-- An operand a word can hold is the value itself. -/
theorem threshOperand_of_lt (tw : ThreshWidth) (v : BitVec 12) (h : v.toNat < 2 ^ tw.bits) :
    threshOperand tw v = v := by
  apply BitVec.eq_of_toNat_eq
  rw [threshOperand_toNat, Nat.mod_eq_of_lt h]

/-! ### The register reads -/

/-- A 12-bit value reads as itself in 16 bits. -/
theorem toNat_zext16 (x : BitVec 12) : (x.setWidth 16).toNat = x.toNat := by
  have := x.isLt
  simp
  omega

@[simp] theorem regRead_status (s : State) : regRead s 0x0#4 = statusWord s := rfl
@[simp] theorem regRead_bitcnt (s : State) : regRead s 0x1#4 = s.bitcnt.setWidth 16 := rfl
@[simp] theorem regRead_thresh (s : State) : regRead s 0x2#4 = s.thresh.setWidth 16 := rfl
@[simp] theorem regRead_tact (s : State) : regRead s 0x3#4 = s.tact.setWidth 16 := rfl
@[simp] theorem regRead_runcnt (s : State) : regRead s 0x4#4 = s.runcnt.setWidth 16 := rfl
@[simp] theorem regRead_frame01 (s : State) : regRead s 0x5#4 = frameByte s.acc 0 ++ frameByte s.acc 1 := rfl
@[simp] theorem regRead_frame23 (s : State) : regRead s 0x6#4 = frameByte s.acc 2 ++ frameByte s.acc 3 := rfl
@[simp] theorem regRead_check (s : State) : regRead s 0x7#4 = expSum s.acc ++ frameByte s.acc 4 := rfl
@[simp] theorem regRead_hum10 (s : State) :
    regRead s 0x8#4 = if s.result = .ok then (hum10 s.acc).setWidth 16 else 0 := rfl
@[simp] theorem regRead_temp10 (s : State) :
    regRead s 0x9#4 = if s.result = .ok then (temp10 s.acc).setWidth 16 else 0 := rfl

/-- A register that holds two bytes, in numbers (20_memory.md rule R55). -/
theorem toNat_bytes (hi lo : Byte) : (hi ++ lo : Word).toNat = 256 * hi.toNat + lo.toNat := by
  have h := BitVec.toNat_append hi lo
  rw [← Nat.shiftLeft_add_eq_or_of_lt lo.isLt, Nat.shiftLeft_eq] at h
  calc (hi ++ lo : Word).toNat = hi.toNat * 2 ^ 8 + lo.toNat := h
    _ = 256 * hi.toNat + lo.toNat := by ring

/-- The STATUS word in numbers (10_state.md rule R33). -/
theorem statusWord_toNat (s : State) :
    (statusWord s).toNat = 32 * s.prev.toNat + 16 * s.illcmd.toNat + 8 * s.late.toNat
      + 2 * (resultCode s.result).toNat + (phaseCode s.phase).toNat := by
  unfold statusWord
  cases s.prev <;> cases s.illcmd <;> cases s.late <;> cases s.result <;> cases s.phase <;> rfl

end Sys2Proof.Machine
end

