-- ==== Sys2Proof/Laws/Step.lean ====
section
/-! SUPPORT. Laws/Step.lean: what a command and a clock cycle can do, once: one equation per command and one inversion per cycle, which later proofs cite instead of unfolding the step. -/

namespace Sys2Proof.Machine

/-! ### The commands -/

theorem exec_nop (s : State) : exec .nop s = .next (s.drive 0) := rfl
theorem exec_start (s : State) : exec .start s = .next (s.beginCapture.drive 0) := rfl
theorem exec_wrth (v : BitVec 12) (s : State) :
    exec (.wrth v) s = .next ((s.setThresh (threshOperand s.tw v)).drive 0) := rfl
theorem exec_read (a : BitVec 4) (s : State) : exec (.read a) s = .next (s.drive (regRead s a)) := rfl

theorem exec_sample_capture (x : Bool) (s : State) (h : s.phase = .capture) :
    exec (.sample x) s = .next ((s.capturedSample x).drive 0) := by
  show execSample x s = _
  unfold execSample; rw [h]

theorem exec_sample_done (x : Bool) (s : State) (h : s.phase = .done) :
    exec (.sample x) s = .next (s.raiseLate.drive 0) := by
  show execSample x s = _
  unfold execSample; rw [h]

theorem exec_end_capture (s : State) (h : s.phase = .capture) :
    exec .endCapture s = .next ((s.recordResult (judge s.bitcnt s.acc)).drive 0) := by
  show execEnd s = _
  unfold execEnd; rw [h]

theorem exec_end_done (s : State) (h : s.phase = .done) : exec .endCapture s = .next (s.drive 0) := by
  show execEnd s = _
  unfold execEnd; rw [h]

/-- A captured sample, by its four cases (40_segmenter.md rules R91 and R92). -/
@[simp] theorem capturedSample_low (s : State) (h : s.prev = false) :
    s.capturedSample false = s.setSegmenter false s.runcnt := by
  simp [State.capturedSample, h, State.takePulse]

@[simp] theorem capturedSample_rise (s : State) (h : s.prev = false) :
    s.capturedSample true = s.setSegmenter true 1 := by
  simp [State.capturedSample, h, State.takePulse]

@[simp] theorem capturedSample_high (s : State) (h : s.prev = true) :
    s.capturedSample true = s.setSegmenter true (satInc s.tw s.runcnt) := by
  simp [State.capturedSample, h, State.takePulse]

@[simp] theorem capturedSample_fall (s : State) (h : s.prev = true) :
    s.capturedSample false = (s.setSegmenter false s.runcnt).accPush (classify s.runcnt s.tact) := by
  simp [State.capturedSample, h, State.takePulse]

/-- What a captured sample leaves as it was. -/
theorem capturedSample_frame (s : State) (x : Bool) :
    (s.capturedSample x).prev = x ∧ (s.capturedSample x).tw = s.tw ∧
    (s.capturedSample x).resetSeen = s.resetSeen ∧ (s.capturedSample x).thresh = s.thresh ∧
    (s.capturedSample x).tact = s.tact ∧ (s.capturedSample x).phase = s.phase ∧
    (s.capturedSample x).result = s.result ∧ (s.capturedSample x).late = s.late ∧
    (s.capturedSample x).illcmd = s.illcmd ∧ (s.capturedSample x).input = s.input := by
  cases hp : s.prev <;> cases x <;> simp [hp]

/-! ### The cycle -/

theorem clock_reset (p : PortIn) (s : State) (h : p.rst = true) : clock p s = .next s.toReset := by
  simp [clock, h]

theorem clock_unreset (p : PortIn) (s : State) (h : p.rst = false) (hs : s.resetSeen = false) :
    clock p s = .fault .beforeFirstReset := by
  simp [clock, h, hs]

theorem clock_idle (p : PortIn) (s : State) (h : p.rst = false) (hs : s.resetSeen = true)
    (hv : p.cmdValid = false) : clock p s = .next (s.drive 0) := by
  simp [clock, h, hs, hv, execIdle]

theorem clock_ok (p : PortIn) (s : State) (i : Instr) (h : p.rst = false) (hs : s.resetSeen = true)
    (hv : p.cmdValid = true) (hd : decode s.tw p.cmd = .ok i) : clock p s = exec i s := by
  simp [clock, h, hs, hv, issue, hd]

theorem clock_error (p : PortIn) (s : State) (e : IllegalWord) (h : p.rst = false) (hs : s.resetSeen = true)
    (hv : p.cmdValid = true) (hd : decode s.tw p.cmd = .error e) :
    clock p s = .next (s.raiseIllcmd.drive 0) := by
  simp [clock, h, hs, hv, issue, hd, execIllegal]

/-- A command or illegal word of a port cycle in its decoded form. -/
theorem clock_command (w : Word) (s : State) (i : Instr) (hs : s.resetSeen = true)
    (hd : decode s.tw w = .ok i) : clock (commandCycle w) s = exec i s :=
  clock_ok (commandCycle w) s i rfl hs rfl hd

/-- A cycle that goes on is a reset, an idle cycle, a command or an illegal word. -/
theorem clock_cases {p : PortIn} {s t : State} (h : clock p s = .next t) :
    (p.rst = true ∧ t = s.toReset) ∨
    (p.rst = false ∧ s.resetSeen = true ∧ p.cmdValid = false ∧ t = s.drive 0) ∨
    (p.rst = false ∧ s.resetSeen = true ∧ p.cmdValid = true ∧ ∃ i, decode s.tw p.cmd = .ok i ∧ exec i s = .next t) ∨
    (p.rst = false ∧ s.resetSeen = true ∧ p.cmdValid = true ∧ (∃ e, decode s.tw p.cmd = .error e) ∧
      t = s.raiseIllcmd.drive 0) := by
  cases hr : p.rst
  · cases hs : s.resetSeen
    · rw [clock_unreset p s hr hs] at h; cases h
    · cases hv : p.cmdValid
      · rw [clock_idle p s hr hs hv] at h; cases h; simp
      · cases hd : decode s.tw p.cmd with
        | ok i => rw [clock_ok p s i hr hs hv hd] at h; exact .inr (.inr (.inl ⟨rfl, rfl, rfl, i, rfl, h⟩))
        | error e =>
          rw [clock_error p s e hr hs hv hd] at h; cases h
          exact .inr (.inr (.inr ⟨rfl, rfl, rfl, ⟨e, rfl⟩, rfl⟩))
  · rw [clock_reset p s hr] at h; cases h; simp

/-- Every command that goes on does one of these eight things. -/
theorem exec_cases {i : Instr} {s t : State} (h : exec i s = .next t) :
    (i = .nop ∧ t = s.drive 0) ∨
    (∃ x, i = .sample x ∧ s.phase = .capture ∧ t = (s.capturedSample x).drive 0) ∨
    (∃ x, i = .sample x ∧ s.phase = .done ∧ t = s.raiseLate.drive 0) ∨
    (i = .start ∧ t = s.beginCapture.drive 0) ∨
    (i = .endCapture ∧ s.phase = .capture ∧ t = (s.recordResult (judge s.bitcnt s.acc)).drive 0) ∨
    (i = .endCapture ∧ s.phase = .done ∧ t = s.drive 0) ∨
    (∃ v, i = .wrth v ∧ t = (s.setThresh (threshOperand s.tw v)).drive 0) ∨
    (∃ a, i = .read a ∧ t = s.drive (regRead s a)) := by
  cases i with
  | nop => rw [exec_nop] at h; cases h; simp
  | start => rw [exec_start] at h; cases h; simp
  | wrth v => rw [exec_wrth] at h; cases h; simp
  | read a => rw [exec_read] at h; cases h; simp
  | sample x =>
    cases hp : s.phase
    · rw [exec_sample_capture x s hp] at h; cases h; simp
    · rw [exec_sample_done x s hp] at h; cases h; simp
  | endCapture =>
    cases hp : s.phase
    · rw [exec_end_capture s hp] at h; cases h; simp
    · rw [exec_end_done s hp] at h; cases h; simp

/-- What every command leaves as it was, and that every command goes on (43_control.md rule R146). -/
theorem exec_total (i : Instr) (s : State) :
    ∃ t, exec i s = .next t ∧ t.tw = s.tw ∧ t.resetSeen = s.resetSeen ∧ t.input = s.input := by
  cases i with
  | nop => exact ⟨_, exec_nop s, by simp⟩
  | start => exact ⟨_, exec_start s, by simp⟩
  | wrth v => exact ⟨_, exec_wrth v s, by simp⟩
  | read a => exact ⟨_, exec_read a s, by simp⟩
  | sample x =>
    cases hp : s.phase
    · exact ⟨_, exec_sample_capture x s hp, by have := capturedSample_frame s x; simp [this]⟩
    · exact ⟨_, exec_sample_done x s hp, by simp⟩
  | endCapture =>
    cases hp : s.phase
    · exact ⟨_, exec_end_capture s hp, by simp⟩
    · exact ⟨_, exec_end_done s hp, by simp⟩

/-- A cycle goes on once reset was seen, or with reset; it keeps the build and the host's stream. -/
theorem clock_total (p : PortIn) (s : State) (h : p.rst = true ∨ s.resetSeen = true) :
    ∃ t, clock p s = .next t ∧ t.tw = s.tw ∧ t.resetSeen = true ∧ t.input = s.input := by
  cases hr : p.rst
  · have hs : s.resetSeen = true := by simpa [hr] using h
    cases hv : p.cmdValid
    · exact ⟨_, clock_idle p s hr hs hv, by simp [hs]⟩
    · cases hd : decode s.tw p.cmd with
      | ok i =>
        obtain ⟨t, ht, h1, h2, h3⟩ := exec_total i s
        exact ⟨t, by rw [clock_ok p s i hr hs hv hd, ht], h1, by rw [h2, hs], h3⟩
      | error e => exact ⟨_, clock_error p s e hr hs hv hd, by simp [hs]⟩
  · exact ⟨_, clock_reset p s hr, by simp⟩

/-- A cycle that goes on keeps the build and the host's stream, and leaves a machine that was reset. -/
theorem clock_keeps {p : PortIn} {s t : State} (h : clock p s = .next t) :
    t.tw = s.tw ∧ t.resetSeen = true ∧ t.input = s.input := by
  have hr : p.rst = true ∨ s.resetSeen = true := by
    rcases clock_cases h with h | h | h | h <;> simp [h.1]
    all_goals exact h.2.1
  obtain ⟨u, hu, hk⟩ := clock_total p s hr
  rw [h] at hu; cases hu; exact hk

/-! ### The host's stream -/

/-- A command does not read the host's stream. -/
theorem exec_withInput {i : Instr} {s t : State} (l : List PortIn) (h : exec i s = .next t) :
    exec i (s.withInput l) = .next (t.withInput l) := by
  rcases exec_cases h with ⟨rfl, rfl⟩ | ⟨x, rfl, hp, rfl⟩ | ⟨x, rfl, hp, rfl⟩ | ⟨rfl, rfl⟩ | ⟨rfl, hp, rfl⟩ |
    ⟨rfl, hp, rfl⟩ | ⟨v, rfl, rfl⟩ | ⟨a, rfl, rfl⟩
  · rfl
  · rw [exec_sample_capture x (s.withInput l) hp]
    have hc : (s.withInput l).capturedSample x = (s.capturedSample x).withInput l := by
      cases hq : s.prev <;> cases x <;> simp [hq] <;> rfl
    rw [hc]; rfl
  · rw [exec_sample_done x (s.withInput l) hp]; rfl
  · rfl
  · rw [exec_end_capture (s.withInput l) hp]; rfl
  · rw [exec_end_done (s.withInput l) hp]; rfl
  · rfl
  · rfl

/-- A cycle that goes on does not read the host's stream. -/
theorem clock_withInput {p : PortIn} {s t : State} (l : List PortIn) (h : clock p s = .next t) :
    clock p (s.withInput l) = .next (t.withInput l) := by
  rcases clock_cases h with ⟨hr, rfl⟩ | ⟨hr, hs, hv, rfl⟩ | ⟨hr, hs, hv, i, hd, he⟩ | ⟨hr, hs, hv, ⟨e, hd⟩, rfl⟩
  · rw [clock_reset p _ hr]; rfl
  · rw [clock_idle p (s.withInput l) hr hs hv]; rfl
  · rw [clock_ok p (s.withInput l) i hr hs hv hd]; exact exec_withInput l he
  · rw [clock_error p (s.withInput l) e hr hs hv hd]; rfl

/-- A cycle never refuses, and faults only before the first reset. -/
theorem clock_stops {p : PortIn} {s : State} (h : ∀ t, clock p s ≠ .next t) :
    p.rst = false ∧ s.resetSeen = false ∧ clock p s = .fault .beforeFirstReset := by
  cases hr : p.rst
  · cases hs : s.resetSeen
    · exact ⟨rfl, rfl, clock_unreset p s hr hs⟩
    · obtain ⟨t, ht, -⟩ := clock_total p s (.inr hs)
      exact absurd ht (h t)
  · exact absurd (clock_reset p s hr) (h _)

/-- The host's run, one step at a time. -/
theorem run_succ (M : Host.Core) (k : Nat) (s : M.State) :
    M.run (k + 1) s = match M.step s with
      | .next s' => M.run k s'
      | .fault r => .fault r
      | .refused r => .refused r := rfl

/-- The fold over cycles, one cycle at a time. -/
theorem runCycles_cons {p : PortIn} {s t : State} (ps : List PortIn) (h : clock p s = .next t) :
    runCycles (p :: ps) s = runCycles ps t := by
  simp [runCycles, h]

/-- The fold over two sequences, where the first goes on. -/
theorem runCycles_append {ps qs : List PortIn} {s t : State} (h : runCycles ps s = .next t) :
    runCycles (ps ++ qs) s = runCycles qs t := by
  induction ps generalizing s with
  | nil => cases h; rfl
  | cons p ps ih =>
    cases hc : clock p s with
    | next u =>
      rw [List.cons_append, runCycles_cons _ hc]
      exact ih (by rwa [runCycles_cons _ hc] at h)
    | fault r => simp [runCycles, hc] at h
    | refused r => simp [runCycles, hc] at h

end Sys2Proof.Machine
end

