-- ==== Sys2Proof/Laws/Capture.lean ====
section
/-! SUPPORT. Laws/Capture.lean: what one cycle inside a capture does, once, and the frame bytes bit by bit. -/

namespace Sys2Proof.Machine

/-- The accumulator's two elements after a push depend on those two elements alone. -/
theorem accPush_congr {s u : State} (b : Bool) (ha : u.acc = s.acc) (hb : u.bitcnt = s.bitcnt) :
    (u.accPush b).acc = (s.accPush b).acc ∧ (u.accPush b).bitcnt = (s.accPush b).bitcnt := by
  simp [State.accPush_acc, State.accPush_bitcnt, ha, hb]

/-- A cycle inside a capture goes on, stays in CAPTURE with its threshold, and either carries no sample and leaves the
segmenter and the accumulator alone, or takes its sample (42_frame_decoder.md rule R128, point 2). -/
theorem insideCapture_clock {p : PortIn} {s : State} (hs : s.resetSeen = true) (hp : s.phase = .capture)
    (hi : insideCapture s.tw p = true) :
    ∃ t, clock p s = .next t ∧ t.phase = .capture ∧ t.tact = s.tact ∧ t.tw = s.tw ∧ t.resetSeen = true ∧
      ((sampleOf s.tw p = none ∧ t.prev = s.prev ∧ t.runcnt = s.runcnt ∧ t.acc = s.acc ∧ t.bitcnt = s.bitcnt) ∨
        ∃ x, sampleOf s.tw p = some x ∧ t = (s.capturedSample x).drive 0) := by
  obtain ⟨t, h, -⟩ := clock_total p s (.inr hs)
  refine ⟨t, h, ?_⟩
  rcases clock_cases h with ⟨hr, rfl⟩ | ⟨hr, hq, hv, rfl⟩ | ⟨hr, hq, hv, i, hd, he⟩ | ⟨hr, hq, hv, ⟨e, hd⟩, rfl⟩
  · simp [insideCapture, hr] at hi
  · simp [hp, hs, sampleOf, hv]
  · rcases exec_cases he with ⟨rfl, rfl⟩ | ⟨x, rfl, hp, rfl⟩ | ⟨x, rfl, hp, rfl⟩ | ⟨rfl, rfl⟩ | ⟨rfl, hp, rfl⟩ |
      ⟨rfl, hp, rfl⟩ | ⟨x, rfl, rfl⟩ | ⟨x, rfl, rfl⟩ <;>
    simp_all [insideCapture, sampleOf, capturedSample_frame]
  · simp [hp, hs, sampleOf, hr, hv, hd]

/-- A byte in its bits. -/
theorem byte_of_bits (x : Byte) :
    x.toNat = (x.getLsbD 7).toNat * 128 + (x.getLsbD 6).toNat * 64 + (x.getLsbD 5).toNat * 32
      + (x.getLsbD 4).toNat * 16 + (x.getLsbD 3).toNat * 8 + (x.getLsbD 2).toNat * 4 + (x.getLsbD 1).toNat * 2
      + (x.getLsbD 0).toNat := by
  revert x
  decide

/-- Bit i of byte j is bit 32 − 8j + i of ACC (30_encoding.md rule R78). -/
theorem getLsbD_frameByte (acc : BitVec 40) (j : Fin 5) (i : Nat) (h : i < 8) :
    (frameByte acc j).getLsbD i = acc.getLsbD (32 - 8 * j.val + i) := by
  unfold frameByte
  rw [BitVec.getLsbD_extractLsb']
  simp [h]

end Sys2Proof.Machine
end

