-- ==== Sys2Proof/Laws/PerInstr.lean ====
section
/-! SUPPORT. Laws/PerInstr.lean: statements made per instruction: the family EncodedOp, which says that a command's word carries the command's opcode in `cmd[15:12]` and its operand in `cmd[11:0]` (30_encoding.md rule R66). -/

namespace Sys2Proof

/-- The bits of a word that is written as `{op, operand}`. -/
theorem getLsbD_word (op : BitVec 4) (operand : BitVec 12) (i : Nat) :
    (op ++ operand : Word).getLsbD i = if i < 12 then operand.getLsbD i else op.getLsbD (i - 12) :=
  BitVec.getLsbD_append (x := op) (y := operand)

/-- The two fields of a word that is written as `{op, operand}`. -/
theorem fields_of_append (op : BitVec 4) (operand : BitVec 12) :
    opField (op ++ operand) = op ∧ operandField (op ++ operand) = operand := by
  constructor
  · apply BitVec.eq_of_getLsbD_eq
    intro i hi
    simp [opField, getLsbD_word, hi]
  · apply BitVec.eq_of_getLsbD_eq
    intro i hi
    simp [operandField, getLsbD_word, hi]

namespace Laws.EncodedOp

/-- The word of `i` has the opcode and the operand of `i` in its two fields. -/
def Statement (i : Instr) : Prop := opField (encode i) = opcodeOf i ∧ operandField (encode i) = operandOf i

theorem nop : Statement .nop := fields_of_append _ _
theorem sample (s : Bool) : Statement (.sample s) := fields_of_append _ _
theorem start : Statement .start := fields_of_append _ _
theorem endCapture : Statement .endCapture := fields_of_append _ _
theorem wrth (v : BitVec 12) : Statement (.wrth v) := fields_of_append _ _
theorem read (a : BitVec 4) : Statement (.read a) := fields_of_append _ _

end Laws.EncodedOp

end Sys2Proof
end

