-- ==== Sys2Proof/Laws/Decode.lean ====
section
/-! SUPPORT. Laws/Decode.lean: the decoder's fields in numbers, and what it can answer, once. -/

namespace Sys2Proof

theorem opField_toNat (w : Word) : (opField w).toNat = w.toNat / 4096 := by
  have := w.isLt
  simp [opField, Nat.shiftRight_eq_div_pow]
  omega

theorem operandField_toNat (w : Word) : (operandField w).toNat = w.toNat % 4096 := by
  simp [operandField]

theorem addrField_eq (w : Word) : addrField w = BitVec.ofNat 4 w.toNat := by
  apply BitVec.eq_of_toNat_eq
  simp [addrField]

theorem sampleField_eq (w : Word) : sampleField w = decide (w.toNat % 2 = 1) := by
  simp [sampleField, BitVec.getLsbD, Nat.testBit_zero]

theorem threshField_toNat (tw : ThreshWidth) (w : Word) : (threshField tw w).toNat = w.toNat % 2 ^ tw.bits := by
  have h : 2 ^ tw.bits ≤ 2 ^ 12 := Nat.pow_le_pow_right (by decide) tw.le_twelve
  have h' : w.toNat % 2 ^ tw.bits < 2 ^ tw.bits := Nat.mod_lt _ (Nat.two_pow_pos _)
  simp only [threshField, BitVec.toNat_setWidth]
  exact Nat.mod_eq_of_lt (by omega)

/-- The reserved bits from `n` up are zero exactly where the operand is below `2 ^ n`. -/
theorem upperZero_iff (n : Nat) (operand : BitVec 12) : upperZero n operand = true ↔ operand.toNat < 2 ^ n := by
  have h : upperZero n operand = true ↔ operand.toNat / 2 ^ n = 0 := by
    simp only [upperZero, beq_iff_eq, ← BitVec.toNat_inj, BitVec.toNat_ushiftRight, Nat.shiftRight_eq_div_pow]
    rfl
  rw [h, Nat.div_eq_zero_iff_lt (Nat.two_pow_pos _)]

/-- A row's answer: the command where its reserved operand bits are zero, else the rejection that says so. -/
theorem ifReservedZero_eq (n : Nat) (operand : BitVec 12) (i : Instr) :
    ifReservedZero (upperZero n operand) i =
      if operand.toNat < 2 ^ n then .ok i else .error .reservedOperandBit := by
  by_cases h : operand.toNat < 2 ^ n
  · simp [ifReservedZero, (upperZero_iff n operand).mpr h, h]
  · have : upperZero n operand = false := by
      rw [Bool.eq_false_iff, ne_eq, upperZero_iff]; exact h
    simp [ifReservedZero, this, h]

/-- The decoder's rows in numbers (30_encoding.md rule R74). -/
theorem decode_eq (tw : ThreshWidth) (w : Word) :
    decode tw w = match w.toNat / 4096 with
      | 0 => if w.toNat % 4096 < 2 ^ 0 then .ok .nop else .error .reservedOperandBit
      | 1 => if w.toNat % 4096 < 2 ^ 1 then .ok (.sample (sampleField w)) else .error .reservedOperandBit
      | 2 => if w.toNat % 4096 < 2 ^ 0 then .ok .start else .error .reservedOperandBit
      | 3 => if w.toNat % 4096 < 2 ^ 0 then .ok .endCapture else .error .reservedOperandBit
      | 4 => if w.toNat % 4096 < 2 ^ tw.bits then .ok (.wrth (threshField tw w)) else .error .reservedOperandBit
      | 5 => if w.toNat % 4096 < 2 ^ 4 then .ok (.read (addrField w)) else .error .reservedOperandBit
      | _ => .error .illegalOpcode := by
  unfold decode
  simp only [opField_toNat, ifReservedZero_eq, operandField_toNat] <;> rfl

end Sys2Proof
end

