-- ==== Sys2Proof/Tests/Slice0.lean ====
section
/-! SUPPORT. Tests/Slice0.lean: decode tests on words written out from 30_encoding.md, the WellFormed smoke test, one-step tests on the vectors of 95_test_vectors.md, and a witness for the hypotheses of every statement that has some. -/

namespace Sys2Proof.Tests

open Sys2Proof.Machine

/-! ### Small states -/

/-- TW = 2, the least legal width (00_scope.md rule R6). -/
def tw2 : ThreshWidth := ⟨2, by decide, by decide⟩

/-- TW = 12, the largest legal width. -/
def tw12 : ThreshWidth := ⟨12, by decide, by decide⟩

/-- The frame [60, 5, 26, 2, 93] complete, before END, with an open high run. -/
def full : State :=
  { State.reset with acc := 0x3C051A025D, bitcnt := 40, prev := true, runcnt := 4 }

/-- The first 39 bits of that frame, the 40th pulse still high. -/
def almost : State := { full with acc := 0x3C051A025C, bitcnt := 39 }

/-- The same capture after END. -/
def ended : State := { full with phase := .done, result := .ok, prev := false }

/-- ResetState before any reset was seen: an unreset machine. -/
def unreset : State := { State.reset with resetSeen := false }

/-- The next state, where there is one. -/
def nextOf : Host.Outcome State Fault Refusal → Option State
  | .next t => some t
  | _ => none

/-! ### Decoding, on words written out bit by bit (30_encoding.md rules R67 to R73) -/

/-- NOP: op 0000, operand 0000 0000 0000. -/
theorem test_decode_nop : decode ThreshWidth.standard 0b0000000000000000 = .ok .nop := by decide
/-- SAMPLE 1: op 0001, cmd[0] = 1. -/
theorem test_decode_sample_high : decode ThreshWidth.standard 0b0001000000000001 = .ok (.sample true) := by decide
/-- SAMPLE 0: op 0001, cmd[0] = 0. -/
theorem test_decode_sample_low : decode ThreshWidth.standard 0b0001000000000000 = .ok (.sample false) := by decide
/-- START: op 0010. -/
theorem test_decode_start : decode ThreshWidth.standard 0b0010000000000000 = .ok .start := by decide
/-- END: op 0011. -/
theorem test_decode_end : decode ThreshWidth.standard 0b0011000000000000 = .ok .endCapture := by decide
/-- WRTH 50: op 0100, cmd[7:0] = 0011 0010. -/
theorem test_decode_wrth : decode ThreshWidth.standard 0b0100000000110010 = .ok (.wrth 50) := by decide
/-- READ 9: op 0101, cmd[3:0] = 1001. -/
theorem test_decode_read : decode ThreshWidth.standard 0b0101000000001001 = .ok (.read 9) := by decide
/-- 95_test_vectors.md V-DEC: 0x4100 is illegal at TW = 8 and WRTH 256 at TW = 12; 0x4004 is illegal at TW = 2. -/
theorem test_decode_wrth_widths :
    decode ThreshWidth.standard 0x4100 = .error .reservedOperandBit ∧ decode tw12 0x4100 = .ok (.wrth 256) ∧
    decode tw2 0x4004 = .error .reservedOperandBit ∧ decode tw2 0x4003 = .ok (.wrth 3) := by decide
/-- V-DEC: the illegal words of each opcode. -/
theorem test_decode_illegal :
    [0x0001, 0x0800, 0x1002, 0x1FFF, 0x2001, 0x3800, 0x5010].map (decode ThreshWidth.standard) =
      List.replicate 7 (.error .reservedOperandBit) ∧
    [0x6000, 0x7ABC, 0xFFFF].map (decode ThreshWidth.standard) = List.replicate 3 (.error .illegalOpcode) := by
  decide
/-- WRTH v is 0x4000 | v and READ a is 0x5000 | a (43_control.md rules R143 and R144). -/
theorem test_encode : encode (.wrth 50) = 0x4032 ∧ encode (.read 15) = 0x500F ∧ encode (.sample true) = 0x1001 := by
  decide

/-- WellFormed refuses the one ill-formed term there can be: a threshold that does not fit TW bits. -/
theorem test_illformed_wrth :
    (Instr.wrth 256).wellFormed ThreshWidth.standard = false ∧ (Instr.wrth 255).wellFormed ThreshWidth.standard = true ∧
    (Instr.wrth 4).wellFormed tw2 = false ∧ (Instr.wrth 4095).wellFormed tw12 = true := by decide

/-! ### One step (95_test_vectors.md) -/

/-- V-NOP. -/
theorem test_nop : nextOf (exec .nop full) = some full := by decide
/-- V-SEG: PREV = 1, RUNCNT = 511, s = 1 stays at 511; RUNCNT = 510 goes to 511. -/
theorem test_sample_saturates :
    (nextOf (exec (.sample true) { full with runcnt := 511 })).map (·.runcnt) = some 511 ∧
    (nextOf (exec (.sample true) { full with runcnt := 510 })).map (·.runcnt) = some 511 := by decide
/-- V-ACC: BITCNT = 39, ACC = 0x3C051A025C, push 1 (a width of 4 at T = 3). -/
theorem test_sample_fortieth_bit :
    (nextOf (exec (.sample false) almost)).map (fun t => (t.acc, t.bitcnt)) = some (0x3C051A025D, 40) := by decide
/-- V-START-1. -/
theorem test_start :
    (nextOf (exec .start { ended with thresh := 50, late := true, result := .checksum })).map
      (fun t => (t.tact, t.result, t.late, t.bitcnt, t.phase)) = some (50, .none, false, 0, .capture) := by decide
/-- V-FD-2: [60, 5, 26, 2, 94] is a checksum mismatch, CHECK = 0x5D5E. -/
theorem test_end_checksum :
    (nextOf (exec .endCapture { full with acc := 0x3C051A025E })).map (fun t => (t.result, regRead t 7)) =
      some (.checksum, 0x5D5E) := by decide
/-- V-FD-9 and program P7: 39 bits are INCOMPLETE, STATUS = 0x0025. -/
theorem test_end_incomplete :
    (nextOf (exec .endCapture almost)).map (fun t => (regRead t 0, regRead t 1)) = some (0x0025, 39) := by decide
/-- V-WRTH-1. -/
theorem test_wrth :
    (nextOf (exec (.wrth 50) full)).map (fun t => (t.thresh, t.tact)) = some (50, 3) := by decide
/-- 43_control.md rule R144's example: READ 8 gives 0x025D (605) after END, and V-READ-4: 0 during a capture. -/
theorem test_read :
    (nextOf (exec (.read 8) ended)).map (·.rdata) = some 0x025D ∧
    (nextOf (exec (.read 8) full)).map (·.rdata) = some 0 := by decide
/-- V-ILL-2 and V-LATE. -/
theorem test_illegal_and_late :
    nextOf (clock (commandCycle 0x1002) full) = some { full with illcmd := true } ∧
    (nextOf (exec (.sample true) ended)).map (regRead · 0) = some 0x000B := by decide
/-- V-RST: reset with END on the port gives ResetState. -/
theorem test_reset_wins :
    nextOf (clock { rst := true, cmdValid := true, cmd := 0x3000 } full) = some State.reset := by decide
/-- A word placed right after reset is what the first step runs (V-READ-1: READ THRESH gives 3). -/
theorem test_first_step :
    (nextOf (step (State.reset.withFetchWord 16 0x5002))).map (·.rdata) = some 3 := by decide

/-! ### The reference functions and the assembler -/

/-- 40_segmenter.md rule R96: 1 1 0 0 1 1 1 1 0 1 gives [2, 4]. -/
theorem test_segment :
    segmentOf [true, true, false, false, true, true, true, true, false, true] = [2, 4] := by decide
/-- 95_test_vectors.md program P2: SENDBIT 1, 5 is HIGH 6, LOW 1; rule R81: SENDBIT 0, 0 is refused. -/
theorem test_sendbit :
    assembleLine ThreshWidth.standard (.sendBit 1 5) = .ok [0x1001, 0x1001, 0x1001, 0x1001, 0x1001, 0x1001, 0x1000] ∧
    assembleLine ThreshWidth.standard (.sendBit 0 0) = .error .operandOutOfRange := by decide
/-- "WRTH 0x32 ;c" and "READ HUM10" (30_encoding.md rule R80). -/
theorem test_assembly_text :
    assembleText ThreshWidth.standard ['W', 'R', 'T', 'H', ' ', '0', 'x', '3', '2', ' ', ';', 'c'] = .ok [0x4032] ∧
    assembleText ThreshWidth.standard ['R', 'E', 'A', 'D', ' ', 'H', 'U', 'M', '1', '0'] = .ok [0x5008] ∧
    assembleText ThreshWidth.standard ['S', 'E', 'T', 'T', ' ', '5'] = .ok [0x4005, 0x2000] := by decide

/-! ### Witnesses: each statement's hypotheses, met together, clause by clause -/

theorem witness_ResetStateValues : State.reset.tw = ThreshWidth.standard ∧ State.reset.thresh = 3 := by decide
theorem witness_ResetCycleLosesCommand :
    (⟨true, true, 0x3000⟩ : PortIn).rst = true ∧ (⟨true, false, 0⟩ : PortIn).rst = true := by decide
theorem witness_UnresetMachineIsStuck : unreset.resetSeen = false ∧ (commandCycle 0x2000).rst = false := by decide
theorem witness_RdataOnlyForRead :
    nextOf (clock (commandCycle 0x500F) full) = some { full with rdata := 0 } ∧
    decode full.tw 0x500F = .ok (.read 15) ∧ (commandCycle 0x500F).cmdValid = true ∧
    (nextOf (clock (commandCycle 0x1001) full)).isSome = true ∧ idleCycle.cmdValid = false := by decide
theorem witness_DoneOutputIsPhaseLevel :
    (nextOf (clock (commandCycle 0x3000) full)).map doneLevel = some true ∧
    beginsCapture full.tw (commandCycle 0x2000) = true ∧ decode full.tw 0x3000 = .ok .endCapture ∧
    beginsCapture full.tw (commandCycle 0x5000) = false := by decide
theorem witness_DecodeEveryWord :
    (0x0FFF#16).toNat / 4096 = 0 ∧ (0x1000#16).toNat / 4096 = 1 ∧ (0x2000#16).toNat / 4096 = 2 ∧
    (0x3FFF#16).toNat / 4096 = 3 ∧ (0x4FFF#16).toNat / 4096 = 4 ∧ (0x5000#16).toNat / 4096 = 5 ∧
    6 ≤ (0x6000#16).toNat / 4096 := by decide
theorem witness_DecodeEncodeAgree :
    (Instr.wrth 3).wellFormed tw2 = true ∧ (Instr.wrth 4095).wellFormed tw12 = true := by decide
theorem witness_EncodeDecodeAgree : decode tw12 0x4FFF = .ok (.wrth 4095) := by decide
theorem witness_SpecWordsDecode : tw12.bits = 12 := by decide
theorem witness_AssemblerEmitsLegalWords :
    assembleLine tw2 (.setT 3) = .ok [0x4003, 0x2000] ∧ ∀ w, AsmLine.setT 3 ≠ .word w :=
  ⟨by decide, fun _ h => nomatch h⟩
theorem witness_SegmentStepFourCases :
    (511#13).toNat = 2 ^ (ThreshWidth.standard.bits + 1) - 1 ∧
    (510#13).toNat < 2 ^ (ThreshWidth.standard.bits + 1) - 1 := by decide
theorem witness_SampleInCapture :
    full.phase = .capture ∧ full.prev = true ∧ almost.prev = true ∧ almost.bitcnt.toNat < 40 ∧
    State.reset.prev = false ∧ State.reset.phase = .capture ∧
    ({ full with runcnt := 511 } : State).runcnt.toNat = 2 ^ (full.tw.bits + 1) - 1 ∧
    ¬(full.bitcnt.toNat < 40) := by decide
/-- The clauses of SampleInCapture that have the invariants as a hypothesis: a saturated pulse in a state that meets them. -/
theorem witness_SampleInCapture_saturated :
    ({ full with runcnt := 511 } : State).Inv ∧
    ({ full with runcnt := 511 } : State).runcnt.toNat = 2 ^ (full.tw.bits + 1) - 1 :=
  ⟨⟨by decide, fun i h => absurd h (by simp [full]), by decide, by decide, by decide, by decide, by decide⟩, by decide⟩
theorem witness_LateSampleOnlySetsLate :
    ended.phase = .done ∧ ended.result = .ok ∧ ended.prev = false ∧ ended.illcmd = false ∧
    (nextOf (clock (commandCycle 0x2000) { ended with late := true })).map (·.late) = some false := by decide
theorem witness_SegmenterEmitsReferenceWidths : 2 ∈ segmentOf [true, true, false] := by decide
theorem witness_SaturationLosesNothing : (255#12).toNat ≤ tmax ThreshWidth.standard ∧ (3#12).toNat ≤ tmax tw2 := by
  decide
theorem witness_NoSampleKeepsTheRun :
    full.resetSeen = true ∧ insideCapture full.tw (commandCycle 0x4001) = true ∧
    sampleOf full.tw (commandCycle 0x4001) = none ∧ insideCapture full.tw (commandCycle 0x1002) = true ∧
    sampleOf full.tw (commandCycle 0x1002) = none := by decide
theorem witness_ClassifyAgainstThreshold :
    (255#12).toNat = 2 ^ ThreshWidth.standard.bits - 1 ∧ (255#13).toNat = (255#12).toNat ∧
    2 ^ ThreshWidth.standard.bits ≤ (256#13).toNat ∧ (511#13).toNat = cmax ThreshWidth.standard ∧
    (256#13).toNat = (255#12).toNat + 1 ∧ 1 ≤ (1#13).toNat := by decide
theorem witness_AccPushStoresOneBit : almost.bitcnt.toNat < 40 ∧ 40 ≤ full.bitcnt.toNat := by decide
theorem witness_AccumulatorAfterBits :
    State.reset.acc = 0 ∧ State.reset.bitcnt = 0 ∧ 0 < min [true].length 40 ∧ 0 + min [true].length 40 < 40 := by decide
theorem witness_EndJudgesTheFrame :
    full.phase = .capture ∧ full.bitcnt = 40 ∧ full.acc.toNat / 2 ^ 32 % 256 = 60 ∧ full.acc.toNat / 2 ^ 24 % 256 = 5 ∧
    full.acc.toNat / 2 ^ 16 % 256 = 26 ∧ full.acc.toNat / 2 ^ 8 % 256 = 2 ∧ full.acc.toNat / 2 ^ 0 % 256 = 93 ∧
    State.reset.bitcnt = 0 ∧ ({ State.reset with bitcnt := 40 } : State).acc = 0 := by decide
theorem witness_RepeatedEndChangesNothing : ended.phase = .done := by decide
theorem witness_OutcomeReadFromRegisters :
    full.phase = .capture ∧ (nextOf (exec .endCapture full)).map (·.result) = some .ok ∧
    (nextOf (exec .endCapture almost)).map (·.result) = some .incomplete ∧
    (nextOf (exec .endCapture { full with acc := 0 ||| 1 })).map (·.result) = some .checksum := by decide
theorem witness_SingleFlipIsDetected :
    ({ full with acc := 0x00FF0000FF } : State).phase = .capture ∧ judge 40 0x00FF0000FF = .ok ∧
    (0x00FF0000FF#40).getLsbD 32 = false ∧ (0x00FF0000FF#40).getLsbD 24 = true := by decide
theorem witness_TrailingPulsesIgnored :
    full.resetSeen = true ∧ full.phase = .capture ∧ full.bitcnt = 40 ∧
    ∀ p ∈ [commandCycle 0x1000, idleCycle, commandCycle 0x1001], insideCapture full.tw p = true := by decide
theorem witness_UnterminatedLastPulseIsLost :
    almost.phase = .capture ∧ almost.prev = true ∧ almost.bitcnt = 39 := by decide
theorem witness_NopAndIdleChangeNothing :
    full.resetSeen = true ∧ idleCycle.rst = false ∧ idleCycle.cmdValid = false := by decide
theorem witness_WrthWritesThreshOnly :
    (255#12).toNat ≤ 2 ^ full.tw.bits - 1 ∧ 2 ^ full.tw.bits - 1 < (256#12).toNat ∧
    (0#12).toNat ≤ 2 ^ full.tw.bits - 1 ∧ 1 ≤ (1#13).toNat := by decide
theorem witness_ReadReturnsTheRegister :
    0xA ≤ (0xA#4).toNat ∧ 0xA ≤ (0xF#4).toNat ∧ ended.result = .ok ∧ ended.acc = 0x3C051A025D := by decide
theorem witness_ReadingOnlyWhenOk : ended.result = .ok ∧ full.result ≠ .ok := by decide
theorem witness_IllegalWordOnlySetsIllcmd :
    full.resetSeen = true ∧ decode full.tw 0x4100 = .error .reservedOperandBit ∧
    decode full.tw 0xFFFF = .error .illegalOpcode := by decide
theorem witness_StepRunsTheDecodedCommand :
    full.resetSeen = true ∧ (full.withFetchWord 16 0x3000).input = commandCycle 0x3000 :: [] ∧
    decode full.tw 0x3000 = .ok .endCapture ∧ (full.withFetchWord 16 0x6000).input = commandCycle 0x6000 :: [] ∧
    decode full.tw 0x6000 = .error .illegalOpcode ∧ full.input = [] := by decide
theorem witness_StepNeverStops : full.resetSeen = true ∧ nextOf (step full) = some full := by decide
theorem witness_StepTakesOneCycleAndKeepsTheBuild :
    (nextOf (step (full.withFetchWord 16 0x3000))).map (·.input) = some [] := by decide
theorem witness_OnlyTheListedWriters :
    (nextOf (clock (commandCycle 0x4032) full)).map (·.thresh) = some 50 ∧
    decode full.tw 0x4032 = .ok (.wrth 50) ∧ (nextOf (clock (commandCycle 0x1001) ended)).map (·.late) = some true ∧
    (nextOf (clock ⟨true, false, 0⟩ unreset)).map (·.resetSeen) = some true := by decide
theorem witness_StickyFlags : (nextOf (clock (commandCycle 0x6000) full)).map (·.illcmd) = some true := by decide
theorem witness_DoneIsLeftByStartOrResetOnly :
    ended.resetSeen = true ∧ ended.phase = .done ∧
    ∀ p ∈ [commandCycle 0x3000, commandCycle 0x1001, commandCycle 0x4000], beginsCapture ended.tw p = false := by decide
theorem witness_ThresholdWaitsForStart :
    full.resetSeen = true ∧ (255#12).toNat ≤ tmax full.tw ∧
    ∀ p ∈ [commandCycle 0x1000, commandCycle 0x3000], beginsCapture full.tw p = false := by decide
/-- The invariants hold in a capture under way that is not ResetState, so the statements over `State.Inv` are not empty. -/
theorem witness_StepKeepsInvariants : full.Inv ∧ step full = .next full :=
  ⟨⟨by decide, fun i h => absurd h (by simp [full]), by decide, by decide, by decide, by decide, by decide⟩, rfl⟩
theorem witness_ReservedBitsReadZero : full.Inv ∧ full.tw.bits ≤ 8 ∧ full.tw.bits + 1 ≤ 9 :=
  ⟨witness_StepKeepsInvariants.1, by decide, by decide⟩
theorem witness_CaptureAnswersDecode :
    3 ≤ tmax full.tw ∧ full.resetSeen = true ∧ full.thresh.toNat = 3 ∧ (⟨true, true, 0x3000⟩ : PortIn).rst = true ∧
    ∀ q ∈ [commandCycle 0x1001, commandCycle 0x4001, commandCycle 0x6000, idleCycle, commandCycle 0x1000],
      insideCapture full.tw q = true := by decide
theorem witness_SendFrameRoundTrip :
    full.resetSeen = true ∧ 1 ≤ 3 ∧ 3 ≤ tmax full.tw ∧ full.thresh.toNat = 3 := by decide

end Sys2Proof.Tests
end

section
/-! Proofs for 10_state.md: the sticky flags LATE and ILLCMD, and the registers HUM10 and TEMP10. -/

namespace Sys2Proof.Machine

/-! ### What a cycle carries, by the cases of `clock_cases` -/

/-- The sample a command carries, if it is a SAMPLE; `sampleOf_ok` ties it to the cycle's. -/
def sampleArg : Instr → Option Bool
  | .sample x => some x
  | _ => none

theorem beginsCapture_reset (tw : ThreshWidth) {p : PortIn} (hr : p.rst = true) : beginsCapture tw p = true := by
  simp [beginsCapture, hr]

theorem beginsCapture_idle (tw : ThreshWidth) {p : PortIn} (hr : p.rst = false) (hv : p.cmdValid = false) :
    beginsCapture tw p = false := by
  simp [beginsCapture, hr, hv]

theorem beginsCapture_ok {tw : ThreshWidth} {p : PortIn} {i : Instr} (hr : p.rst = false) (hv : p.cmdValid = true)
    (hd : decode tw p.cmd = .ok i) : beginsCapture tw p = decide (i = .start) := by
  cases i <;> simp [beginsCapture, hr, hv, hd]

theorem beginsCapture_error {tw : ThreshWidth} {p : PortIn} {e : IllegalWord} (hr : p.rst = false)
    (hd : decode tw p.cmd = .error e) : beginsCapture tw p = false := by
  simp [beginsCapture, hr, hd]

theorem sampleOf_idle (tw : ThreshWidth) {p : PortIn} (hv : p.cmdValid = false) : sampleOf tw p = none := by
  simp [sampleOf, hv]

theorem sampleOf_ok {tw : ThreshWidth} {p : PortIn} {i : Instr} (hr : p.rst = false) (hv : p.cmdValid = true)
    (hd : decode tw p.cmd = .ok i) : sampleOf tw p = sampleArg i := by
  cases i <;> simp [sampleOf, sampleArg, hr, hv, hd]

theorem sampleOf_error {tw : ThreshWidth} {p : PortIn} {e : IllegalWord} (hd : decode tw p.cmd = .error e) :
    sampleOf tw p = none := by
  simp [sampleOf, hd]

/-! ### The sticky flags -/

/-- A command clears LATE if it is START, and sets it if it is a SAMPLE in DONE (10_state.md rule R30). -/
theorem exec_late {i : Instr} {s t : State} (h : exec i s = .next t) :
    t.late = (!decide (i = .start) && (s.late || ((sampleArg i).isSome && s.phase == .done))) := by
  rcases exec_cases h with ⟨rfl, rfl⟩ | ⟨x, rfl, hp, rfl⟩ | ⟨x, rfl, hp, rfl⟩ | ⟨rfl, rfl⟩ | ⟨rfl, hp, rfl⟩ |
    ⟨rfl, hp, rfl⟩ | ⟨v, rfl, rfl⟩ | ⟨a, rfl, rfl⟩
  case inr.inl => simp [hp, capturedSample_frame]
  case inr.inr.inl => simp [sampleArg, hp]
  all_goals simp [sampleArg]

/-- A command clears ILLCMD if it is START, and no legal command sets it (10_state.md rule R31). -/
theorem exec_illcmd {i : Instr} {s t : State} (h : exec i s = .next t) :
    t.illcmd = (!decide (i = .start) && s.illcmd) := by
  rcases exec_cases h with ⟨rfl, rfl⟩ | ⟨x, rfl, hp, rfl⟩ | ⟨x, rfl, hp, rfl⟩ | ⟨rfl, rfl⟩ | ⟨rfl, hp, rfl⟩ |
    ⟨rfl, hp, rfl⟩ | ⟨v, rfl, rfl⟩ | ⟨a, rfl, rfl⟩
  case inr.inl => simp [capturedSample_frame]
  all_goals simp

/-- LATE after a cycle that goes on (10_state.md rule R30). -/
theorem clock_late {p : PortIn} {s t : State} (h : clock p s = .next t) :
    t.late = (!beginsCapture s.tw p && (s.late || ((sampleOf s.tw p).isSome && s.phase == .done))) := by
  rcases clock_cases h with ⟨hr, rfl⟩ | ⟨hr, -, hv, rfl⟩ | ⟨hr, -, hv, i, hd, he⟩ | ⟨hr, -, -, ⟨e, hd⟩, rfl⟩
  · simp [beginsCapture_reset s.tw hr]
  · simp [beginsCapture_idle s.tw hr hv, sampleOf_idle s.tw hv]
  · rw [beginsCapture_ok hr hv hd, sampleOf_ok hr hv hd, exec_late he]
  · simp [beginsCapture_error hr hd, sampleOf_error hd]

/-- ILLCMD after a cycle that goes on (10_state.md rule R31). -/
theorem clock_illcmd {p : PortIn} {s t : State} (h : clock p s = .next t) :
    t.illcmd = true ↔ beginsCapture s.tw p = false ∧
      (s.illcmd = true ∨ (p.cmdValid = true ∧ ∃ e, decode s.tw p.cmd = .error e)) := by
  rcases clock_cases h with ⟨hr, rfl⟩ | ⟨hr, -, hv, rfl⟩ | ⟨hr, -, hv, i, hd, he⟩ | ⟨hr, -, hv, ⟨e, hd⟩, rfl⟩
  · simp [beginsCapture_reset s.tw hr]
  · simp [beginsCapture_idle s.tw hr hv, hv]
  · simp [beginsCapture_ok hr hv hd, exec_illcmd he, hd]
  · simp [beginsCapture_error hr hd, hv, hd]

/-- Settles O41, by the cases of a cycle that goes on. -/
theorem stickyFlags : Obligations.StickyFlags := fun _ _ _ h => ⟨clock_late h, clock_illcmd h⟩

/-! ### The reading -/

/-- HUM10 as READ sees it where RESULT = OK, in tenths (10_state.md rule R41). -/
theorem regRead_hum10_of_ok {s : State} (h : s.result = .ok) :
    (regRead s 0x8#4).toNat = 10 * (frameByte s.acc 0).toNat + (frameByte s.acc 1).toNat := by
  rw [regRead_hum10, if_pos h, toNat_zext16, hum10, inTenths_toNat]

/-- TEMP10 as READ sees it where RESULT = OK, in tenths (10_state.md rule R42). -/
theorem regRead_temp10_of_ok {s : State} (h : s.result = .ok) :
    (regRead s 0x9#4).toNat = 10 * (frameByte s.acc 2).toNat + (frameByte s.acc 3).toNat := by
  rw [regRead_temp10, if_pos h, toNat_zext16, temp10, inTenths_toNat]

/-- Without a valid reading both registers read 0 (10_state.md rules R41 and R42). -/
theorem regRead_reading_of_not_ok {s : State} (h : s.result ≠ .ok) :
    regRead s 0x8#4 = 0x0000 ∧ regRead s 0x9#4 = 0x0000 := by
  rw [regRead_hum10, regRead_temp10, if_neg h, if_neg h]
  exact ⟨rfl, rfl⟩

/-- Settles O34: the registers by RESULT, which is NONE after reset. -/
theorem readingOnlyWhenOk : Obligations.ReadingOnlyWhenOk := by
  refine ⟨fun s => ⟨fun h => ⟨regRead_hum10_of_ok h, regRead_temp10_of_ok h⟩, regRead_reading_of_not_ok⟩, fun tw => ?_⟩
  have hnone : (State.resetFor tw).result = .none := rfl
  exact regRead_reading_of_not_ok (by simp [hnone])

end Sys2Proof.Machine
end

section
/-! Proofs for 30_encoding.md: DecodeCmd on every word, and which words are illegal. -/

namespace Sys2Proof.Machine

/-! ### Decoding every word -/

/-- Where the reserved bits of a WRTH are zero, the threshold is the whole operand (30_encoding.md rule R75). -/
theorem threshField_of_lt {tw : ThreshWidth} {w : Word} (h : w.toNat % 4096 < 2 ^ tw.bits) :
    threshField tw w = BitVec.ofNat 12 w.toNat := by
  apply BitVec.eq_of_toNat_eq
  have hdvd : 2 ^ tw.bits ∣ 4096 := pow_dvd_pow 2 tw.le_twelve
  rw [threshField_toNat, BitVec.toNat_ofNat, ← Nat.mod_mod_of_dvd w.toNat hdvd, Nat.mod_eq_of_lt h]

/-- The WRTH row with its operand read as a number. -/
theorem decode_wrth_row {tw : ThreshWidth} {w : Word} (h : w.toNat / 4096 = 4) :
    decode tw w =
      if w.toNat % 4096 < 2 ^ tw.bits then .ok (.wrth (BitVec.ofNat 12 w.toNat)) else .error .reservedOperandBit := by
  rw [decode_eq, h]
  exact if_ctx_congr Iff.rfl (fun hlt => by rw [threshField_of_lt hlt]) fun _ => rfl

/-- Every opcode from 6 up is illegal (30_encoding.md rule R72). -/
theorem decode_of_six_le (tw : ThreshWidth) {w : Word} (h : 6 ≤ w.toNat / 4096) :
    decode tw w = .error .illegalOpcode := by
  rw [decode_eq]
  split
  case h_7 => rfl
  all_goals omega

/-- Settles O6: the decoder's rows, one opcode at a time. -/
theorem decodeEveryWord : Obligations.DecodeEveryWord := by
  intro tw w
  refine ⟨fun h => ?nop, fun h => ?sample, fun h => ?start, fun h => ?endCapture, decode_wrth_row, fun h => ?read,
    decode_of_six_le tw⟩
  case sample => simp [decode_eq, h, sampleField_eq]
  case read => simp [decode_eq, h, addrField_eq]
  all_goals simp [decode_eq, h]

/-! ### Illegal words -/

/-- A row's answer is a rejection exactly where the row's test fails. -/
theorem exists_ite_error_iff {c : Prop} [Decidable c] (i : Instr) (r : IllegalWord) :
    (∃ e, (if c then Except.ok i else Except.error r) = Except.error e) ↔ ¬c := by
  by_cases h : c <;> simp [h]

/-- The illegal words: an opcode from 6 up, or a reserved operand bit that is 1 (30_encoding.md rule R72). -/
theorem decode_error_iff (tw : ThreshWidth) (w : Word) :
    (∃ e, decode tw w = .error e) ↔
      6 ≤ w.toNat / 4096 ∨
      (w.toNat / 4096 ∈ [0, 2, 3] ∧ w.toNat % 4096 ≠ 0) ∨
      (w.toNat / 4096 = 1 ∧ 2 ≤ w.toNat % 4096) ∨
      (w.toNat / 4096 = 4 ∧ 2 ^ tw.bits ≤ w.toNat % 4096) ∨
      (w.toNat / 4096 = 5 ∧ 16 ≤ w.toNat % 4096) := by
  obtain ⟨nop, sample, start, endCapture, wrth, read, illegal⟩ := decodeEveryWord tw w
  obtain h | h | h | h | h | h | h : w.toNat / 4096 = 0 ∨ w.toNat / 4096 = 1 ∨ w.toNat / 4096 = 2 ∨
      w.toNat / 4096 = 3 ∨ w.toNat / 4096 = 4 ∨ w.toNat / 4096 = 5 ∨ 6 ≤ w.toNat / 4096 := by omega
  · rw [nop h, exists_ite_error_iff]; simp [h]
  · rw [sample h, exists_ite_error_iff]; simp [h, Nat.lt_iff_add_one_le]
  · rw [start h, exists_ite_error_iff]; simp [h]
  · rw [endCapture h, exists_ite_error_iff]; simp [h]
  · rw [wrth h, exists_ite_error_iff]; simp [h]
  · rw [read h, exists_ite_error_iff]; simp [h]
  · simp [illegal h, h]

/-- An illegal word sets ILLCMD and drives 0x0000, and nothing else changes (43_control.md rule R145). -/
theorem clock_illegal_word {s : State} {w : Word} {e : IllegalWord} (hs : s.resetSeen = true)
    (hd : decode s.tw w = .error e) :
    clock (commandCycle w) s = .next { s with illcmd := true, rdata := 0x0000 } :=
  clock_error (commandCycle w) s e rfl hs rfl hd

/-- Settles O35: the illegal words, the effect of one, and 0x6000 from reset. -/
theorem illegalWordOnlySetsIllcmd : Obligations.IllegalWordOnlySetsIllcmd := by
  refine ⟨fun s w hs => ⟨(decode_error_iff s.tw w).symm, fun _ => clock_illegal_word hs⟩, ?_⟩
  have hd : decode State.reset.tw 0x6000 = .error .illegalOpcode := decode_of_six_le _ (by decide)
  exact ⟨_, clock_illegal_word rfl hd, by decide⟩

end Sys2Proof.Machine
end

section
/-! Proofs for 40_segmenter.md: SegStep, SAMPLE in CAPTURE and SAMPLE in DONE. -/

namespace Sys2Proof.Machine

/-! ### The saturating count -/

/-- At CMAX the count stays (00_scope.md rule R11). -/
theorem satInc_of_eq_cmax {tw : ThreshWidth} {c : BitVec 13} (h : c.toNat = cmax tw) : satInc tw c = c := if_pos h

/-- At any other value the count goes up by one (00_scope.md rule R11). -/
theorem satInc_of_ne_cmax {tw : ThreshWidth} {c : BitVec 13} (h : c.toNat ≠ cmax tw) : satInc tw c = c + 1 := if_neg h

/-- Below CMAX the increment does not wrap. -/
theorem satInc_toNat_of_lt {tw : ThreshWidth} {c : BitVec 13} (h : c.toNat < cmax tw) :
    (satInc tw c).toNat = c.toNat + 1 := by
  rw [satInc_toNat tw c h.le, Nat.min_eq_left h]

/-- Settles O12: the four cases, the repeated high by the saturating count. -/
theorem segmentStepFourCases : Obligations.SegmentStepFourCases := fun tw c =>
  ⟨segStep_rise tw c, segStep_fall tw c, ⟨_, segStep_high tw c, satInc_of_eq_cmax, satInc_toNat_of_lt⟩,
    segStep_low tw c⟩

/-! ### SAMPLE in CAPTURE -/

/-- The two legal words of SAMPLE (30_encoding.md rule R68). -/
theorem decode_sample_words (tw : ThreshWidth) :
    decode tw 0x1000 = .ok (.sample false) ∧ decode tw 0x1001 = .ok (.sample true) := by
  simp [decode_eq, sampleField_eq]

/-- A low sample, falling edge or not, leaves RUNCNT (40_segmenter.md rule R91). -/
theorem capturedSample_low_runcnt (s : State) : (s.capturedSample false).runcnt = s.runcnt := by
  cases hp : s.prev <;> simp [hp]

/-- A falling edge counts one bit while there is room (40_segmenter.md rule R92). -/
theorem capturedSample_fall_bitcnt {s : State} (hp : s.prev = true) (hb : s.bitcnt.toNat < 40) :
    (s.capturedSample false).bitcnt.toNat = s.bitcnt.toNat + 1 := by
  rw [capturedSample_fall s hp]
  exact accPush_bitcnt_toNat _ _ hb

/-- A falling edge stores the classified pulse in the frame's next bit, `ACC[39 − BITCNT]`, and no other (40_segmenter.md
rule R92). -/
theorem capturedSample_fall_acc {s : State} (hp : s.prev = true) (hb : s.bitcnt.toNat < 40) {k : Nat} (hk : k < 40) :
    (s.capturedSample false).acc.getLsbD (39 - k) =
      if k = s.bitcnt.toNat then decide (s.tact.toNat < s.runcnt.toNat) else s.acc.getLsbD (39 - k) := by
  have hindex : 39 - k = 39 - s.bitcnt.toNat ↔ k = s.bitcnt.toNat := by omega
  rw [capturedSample_fall s hp, accPush_getLsbD (s.setSegmenter false s.runcnt) _ _ hb]
  exact if_congr hindex rfl rfl

/-- Only a falling edge with room for its bit touches the accumulator (40_segmenter.md rule R92). -/
theorem capturedSample_keeps_frame {s : State} {x : Bool}
    (h : ¬(s.prev = true ∧ x = false ∧ s.bitcnt.toNat < 40)) :
    (s.capturedSample x).bitcnt = s.bitcnt ∧ (s.capturedSample x).acc = s.acc := by
  cases hp : s.prev <;> cases x
  case true.false =>
    have hfull : 40 ≤ (s.setSegmenter false s.runcnt).bitcnt.toNat := by simpa [hp] using h
    rw [capturedSample_fall s hp, accPush_full _ _ hfull]
    exact ⟨rfl, rfl⟩
  all_goals simp [hp]

/-- A saturated pulse is a 1 against every threshold of the build, as TACT ≤ TMAX < CMAX (40_segmenter.md rule R95). -/
theorem State.Inv.tact_lt_of_saturated {s : State} (hi : s.Inv) (h : s.runcnt.toNat = cmax s.tw) :
    s.tact.toNat < s.runcnt.toNat :=
  calc s.tact.toNat ≤ tmax s.tw := hi.tact_le
    _ < cmax s.tw := tmax_lt_cmax s.tw
    _ = s.runcnt.toNat := h.symm

/-- The first high sample of a capture is a rising edge (40_segmenter.md rule R92). -/
theorem exec_sample_first_high {s : State} (hc : s.phase = .capture) (hp : s.prev = false) :
    exec (.sample true) s = .next ((s.setSegmenter true 1).drive 0) := by
  rw [exec_sample_capture true s hc, capturedSample_rise s hp]

/-- Settles O13: the captured sample element by element, then a first high sample after START, and the rule's example of
a pulse of one sample after reset. -/
theorem sampleInCapture : Obligations.SampleInCapture := by
  refine ⟨decode_sample_words, fun s x hc => ?next, fun s => ?start, fun tw => ?reset⟩
  case next =>
    obtain ⟨hprev, htw, hseen, hthresh, htact, hphase, hresult, hlate, hillcmd, hinput⟩ := capturedSample_frame s x
    refine ⟨_, exec_sample_capture x s hc, hprev, ?rise, ?saturated, ?high, ?low, ?fall, capturedSample_keeps_frame,
      fun hp _ hi => hi.runcnt_pos hp, fun h hi => hi.tact_lt_of_saturated h, hthresh, htact, hphase, hresult, hlate,
      hillcmd, htw, hseen, hinput, rfl⟩
    case rise => rintro rfl hp; simp [capturedSample_rise s hp]
    case saturated => rintro rfl hp hmax; simp [capturedSample_high s hp, satInc_of_eq_cmax hmax]
    case high => rintro rfl hp hmax; simp [capturedSample_high s hp, satInc_of_ne_cmax hmax]
    case low => rintro rfl; exact capturedSample_low_runcnt s
    case fall => rintro hp rfl hb; exact ⟨capturedSample_fall_bitcnt hp hb, fun k => capturedSample_fall_acc hp hb⟩
  case start => exact ⟨_, _, exec_start s, exec_sample_first_high rfl rfl, rfl, rfl⟩
  case reset =>
    have hb : (((State.resetFor tw).setSegmenter true 1).drive 0).bitcnt.toNat < 40 :=
      (by decide : (0 : BitVec 6).toNat < 40)
    refine ⟨_, _, exec_sample_first_high rfl rfl, rfl, rfl, rfl, exec_sample_capture false _ rfl, ?_, ?_⟩
    · exact BitVec.eq_of_toNat_eq (capturedSample_fall_bitcnt rfl hb)
    · exact capturedSample_fall_acc rfl hb (k := 0) (by decide)

/-! ### SAMPLE in DONE -/

/-- STATUS after a good capture and a late sample: LATE, OK and DONE (10_state.md rule R33). -/
theorem statusWord_late_ok {s : State} (hp : s.phase = .done) (hr : s.result = .ok) (hprev : s.prev = false)
    (hi : s.illcmd = false) (hl : s.late = true) : statusWord s = 0x000B := by
  apply BitVec.eq_of_toNat_eq
  rw [statusWord_toNat, hp, hr, hprev, hi, hl]
  rfl

/-- Settles O14: the late sample's next state, STATUS in it, and the cycles that clear LATE, by `clock_late`. -/
theorem lateSampleOnlySetsLate : Obligations.LateSampleOnlySetsLate := by
  refine ⟨decode_sample_words, fun s x hp => ⟨exec_sample_done x s hp, fun hr hprev hi => ?status⟩,
    fun s t p h hset hcleared => ?clear⟩
  case status => exact statusWord_late_ok hp hr hprev hi rfl
  case clear => simpa [hset, hcleared] using clock_late h

end Sys2Proof.Machine
end

section
/-! Proofs for 42_frame_decoder.md: END in its two phases, and what the host reads after it. -/

namespace Sys2Proof.Machine

/-! ### END -/

/-- INCOMPLETE is the outcome of the length test alone (60_exceptions.md rule R164). -/
theorem judge_incomplete_iff (bitcnt : BitVec 6) (acc : BitVec 40) :
    judge bitcnt acc = .incomplete ↔ bitcnt.toNat < 40 := by
  unfold judge
  by_cases h : bitcnt.toNat < 40
  · simp [h]
  · by_cases h2 : expSum acc = frameByte acc 4 <;> simp [h, h2]

/-- The word of END (30_encoding.md rule R70). -/
theorem decode_end_word (tw : ThreshWidth) : decode tw 0x3000 = .ok .endCapture := by
  simp [decode_eq]

/-- After END the phase is DONE, whichever phase END came in (42_frame_decoder.md rules R123 and R124). -/
theorem exec_end_phase {s t : State} (h : exec .endCapture s = .next t) : t.phase = .done := by
  cases hp : s.phase
  · rw [exec_end_capture s hp] at h; cases h; rfl
  · rw [exec_end_done s hp] at h; cases h; exact hp

/-- Settles O22: in DONE by END's equation; the second END of two runs in the DONE that the first one left. -/
theorem repeatedEndChangesNothing : Obligations.RepeatedEndChangesNothing := by
  refine ⟨exec_end_done, fun s => ?_⟩
  obtain ⟨t, ht, -⟩ := exec_total .endCapture s
  exact ⟨t, t.drive 0, ht, exec_end_done t (exec_end_phase ht), rfl⟩

/-- Settles O21: END's equation, with the judgement in the numbers of the frame's bytes. -/
theorem endJudgesTheFrame : Obligations.EndJudgesTheFrame := by
  refine ⟨decode_end_word, fun s hc => ?_⟩
  intro b r
  have hb : ∀ j : Fin 5, (frameByte s.acc j).toNat = b j := frameByte_toNat s.acc
  have hr : judge s.bitcnt s.acc = r := by simp [judge_eq, r, b]
  refine ⟨?next, ?low, rfl, ?noBits, ?zeroFrame, ?exampleFrame⟩
  case next => rw [← hr]; exact exec_end_capture s hc
  case low => simp [doneLevel, hc]
  case noBits => intro h; rw [← hr, judge_incomplete_iff, h]; decide
  case zeroFrame => intro hbits hacc; rw [← hr, hbits, hacc]; decide
  case exampleFrame =>
    intro hbits h0 h1 h2 h3 h4
    have hbyte : ∀ (j : Fin 5) (x : Byte), b j = x.toNat → frameByte s.acc j = x :=
      fun j x h => BitVec.eq_of_toNat_eq ((hb j).trans h)
    rw [← hr, hbits, judge_ok_iff, expSum, hum10, temp10, hbyte 0 60 h0, hbyte 1 5 h1, hbyte 2 26 h2, hbyte 3 2 h3,
      hbyte 4 93 h4]
    decide

/-! ### What the host reads after END -/

/-- `STATUS.RESULT`, bits 2 and 1 of STATUS (10_state.md rule R33). -/
theorem regRead_status_result (s : State) : (regRead s 0x0#4).toNat / 2 % 4 = (resultCode s.result).toNat := by
  have hcode := (resultCode s.result).isLt
  have hphase := (phaseCode s.phase).isLt
  rw [regRead_status, statusWord_toNat]
  omega

/-- BITCNT as READ sees it (10_state.md rule R34). -/
theorem regRead_bitcnt_toNat (s : State) : (regRead s 0x1#4).toNat = s.bitcnt.toNat := by
  have hlt := s.bitcnt.isLt
  rw [regRead_bitcnt, BitVec.toNat_setWidth, Nat.mod_eq_of_lt (by omega)]

/-- Settles O23: the registers by the outcome END recorded, in the numbers of the frame's bytes. -/
theorem outcomeReadFromRegisters : Obligations.OutcomeReadFromRegisters := by
  intro s hc
  refine ⟨_, exec_end_capture s hc, ?_⟩
  intro b e
  set t := (s.recordResult (judge s.bitcnt s.acc)).drive 0
  have hb : ∀ j : Fin 5, (frameByte t.acc j).toNat = b j := frameByte_toNat s.acc
  have he : (expSum t.acc).toNat = e := expSum_toNat s.acc
  have hcheck : (regRead t 0x7#4).toNat = 256 * e + b 4 := by rw [regRead_check, toNat_bytes, he, hb]; rfl
  have hb4 : b 4 < 256 := Nat.mod_lt _ (by decide)
  refine ⟨fun h => ?ok, fun h => ?incomplete, fun h => ?checksum, judge_ne_none _ _⟩
  case ok =>
    refine ⟨?_, ?_, ?_, ?_, ?_, hcheck⟩
    · rw [regRead_status_result, h]; rfl
    · rw [regRead_hum10_of_ok h, hb, hb]; rfl
    · rw [regRead_temp10_of_ok h, hb, hb]; rfl
    · rw [regRead_frame01, toNat_bytes, hb, hb]; rfl
    · rw [regRead_frame23, toNat_bytes, hb, hb]; rfl
  case incomplete =>
    have hshort : s.bitcnt.toNat < 40 := (judge_incomplete_iff _ _).1 h
    refine ⟨?_, regRead_bitcnt_toNat t, by omega, regRead_reading_of_not_ok (by simp [h])⟩
    rw [regRead_status_result, h]; rfl
  case checksum =>
    refine ⟨?_, by omega, by omega, regRead_reading_of_not_ok (by simp [h])⟩
    rw [regRead_status_result, h]; rfl

end Sys2Proof.Machine
end

section
/-! Proofs for 43_control.md: NOP, START, WRTH and READ. -/

namespace Sys2Proof.Machine

/-! ### The words of the control commands -/

/-- The word of NOP (30_encoding.md rule R67). -/
theorem decode_nop_word (tw : ThreshWidth) : decode tw 0x0000 = .ok .nop := by
  simp [decode_eq]

/-- The word of START (30_encoding.md rule R69). -/
theorem decode_start_word (tw : ThreshWidth) : decode tw 0x2000 = .ok .start := by
  simp [decode_eq]

/-- Or-ing an operand into a word that holds the opcode alone adds it: the two fields do not overlap (30_encoding.md rule
R66). -/
theorem toNat_opcode_or_operand {c : Word} {op n : Nat} (hc : c.toNat = 2 ^ 12 * op) (hn : n ≤ 12) (x : BitVec n) :
    (c ||| x.setWidth 16).toNat = 2 ^ 12 * op + x.toNat := by
  have hx : x.toNat < 2 ^ 12 := x.isLt.trans_le (Nat.pow_le_pow_right (by decide) hn)
  have hwide : (x.setWidth 16).toNat = x.toNat := by
    rw [BitVec.toNat_setWidth]
    omega
  rw [BitVec.toNat_or, hc, hwide, Nat.two_pow_add_eq_or_of_lt hx]

/-- The low bits of such a word are the operand. -/
theorem ofNat_opcode_add_operand {n : Nat} (op : Nat) (hn : n ≤ 12) (x : BitVec n) :
    BitVec.ofNat n (2 ^ 12 * op + x.toNat) = x := by
  obtain ⟨k, hk⟩ : 2 ^ n ∣ 2 ^ 12 * op := (pow_dvd_pow 2 hn).mul_right op
  apply BitVec.eq_of_toNat_eq
  rw [BitVec.toNat_ofNat, hk, Nat.mul_add_mod, Nat.mod_eq_of_lt x.isLt]

/-- `0x4000 | v` is WRTH v for every threshold of the build (43_control.md rule R143). -/
theorem decode_wrth_word {tw : ThreshWidth} {v : BitVec 12} (hv : v.toNat < 2 ^ tw.bits) :
    decode tw (0x4000 ||| v.setWidth 16) = .ok (.wrth v) := by
  have hw : (0x4000 ||| v.setWidth 16 : Word).toNat = 2 ^ 12 * 4 + v.toNat :=
    toNat_opcode_or_operand rfl (by decide) v
  have hlt := v.isLt
  rw [decode_wrth_row (by omega), if_pos (by omega), hw, ofNat_opcode_add_operand 4 (by decide) v]

/-- `0x5000 | a` is READ a (43_control.md rule R144). -/
theorem decode_read_word (tw : ThreshWidth) (a : BitVec 4) :
    decode tw (0x5000 ||| a.setWidth 16) = .ok (.read a) := by
  have hw : (0x5000 ||| a.setWidth 16 : Word).toNat = 2 ^ 12 * 5 + a.toNat :=
    toNat_opcode_or_operand rfl (by decide) a
  have hlt := a.isLt
  obtain ⟨-, -, -, -, -, read, -⟩ := decodeEveryWord tw (0x5000 ||| a.setWidth 16)
  rw [read (by omega), if_pos (by omega), hw, ofNat_opcode_add_operand 5 (by decide) a]

/-- No word holds a threshold above TMAX (43_control.md rule R143). -/
theorem decode_wrth_lt {tw : ThreshWidth} {w : Word} {v : BitVec 12} (h : decode tw w = .ok (.wrth v)) :
    v.toNat < 2 ^ tw.bits := by
  rw [decode_eq] at h
  split at h
  case h_5 =>
    split at h
    · cases h
      rw [threshField_toNat]
      exact Nat.mod_lt _ (Nat.two_pow_pos _)
    · cases h
  case h_7 => cases h
  all_goals split at h <;> cases h

/-! ### NOP and START -/

/-- Settles O28: NOP's equation, which the word 0x0000 and an idle cycle share. -/
theorem nopAndIdleChangeNothing : Obligations.NopAndIdleChangeNothing := fun s =>
  ⟨exec_nop s, fun hs => ⟨clock_command 0x0000 s .nop hs (decode_nop_word s.tw), fun p hr hv =>
    (clock_idle p s hr hs hv).trans (exec_nop s).symm⟩⟩

/-- Right after START every bit of STATUS is 0 (43_control.md rule R142). -/
theorem statusWord_beginCapture (s : State) : statusWord s.beginCapture = 0x0000 := by
  apply BitVec.eq_of_toNat_eq
  rw [statusWord_toNat]
  rfl

/-- Settles O29: START's equation; every element that it does not write is THRESH or the model's own field, so the state is
ResetState but for those. -/
theorem startBeginsACapture : Obligations.StartBeginsACapture :=
  ⟨decode_start_word, fun s => ⟨s.beginCapture.drive 0, exec_start s, rfl, statusWord_beginCapture s, rfl, rfl, rfl⟩⟩

/-! ### WRTH -/

/-- WRTH of a threshold of the build moves it into THRESH and changes nothing else (43_control.md rule R143). -/
theorem exec_wrth_of_lt {s : State} {v : BitVec 12} (hv : v.toNat < 2 ^ s.tw.bits) :
    exec (.wrth v) s = .next { s with thresh := v, rdata := 0x0000 } := by
  rw [exec_wrth, threshOperand_of_lt s.tw v hv]
  rfl

/-- Against the threshold 0 every pulse is a 1 (41_classifier.md rule R107). -/
theorem classify_zero_thresh {w : BitVec 13} (hw : 1 ≤ w.toNat) : classify w 0 = true :=
  decide_eq_true hw

/-- Settles O30: the word, WRTH's and START's equations, and the bound on what a word can hold. -/
theorem wrthWritesThreshOnly : Obligations.WrthWritesThreshOnly := by
  intro s v
  refine ⟨fun hle => ?fits, fun hgt w hd => ?tooLarge⟩
  case fits =>
    have hv : v.toNat < 2 ^ s.tw.bits := Nat.lt_of_le_pred (Nat.two_pow_pos _) hle
    refine ⟨decode_wrth_word hv, exec_wrth_of_lt hv, _, exec_start _, rfl, ?_⟩
    rintro rfl w hw
    exact classify_zero_thresh hw
  case tooLarge => exact absurd (decode_wrth_lt hd) (by omega)

/-! ### READ -/

/-- No register shows the read-data output (43_control.md rule R147). -/
@[simp] theorem regRead_drive (s : State) (v : Word) (a : BitVec 4) : regRead (s.drive v) a = regRead s a := by
  unfold regRead
  cases regAt a <;> rfl

/-- RUNCNT as READ sees it (10_state.md rule R37). -/
theorem regRead_runcnt_toNat (s : State) : (regRead s 0x4#4).toNat = s.runcnt.toNat := by
  have hlt := s.runcnt.isLt
  rw [regRead_runcnt, BitVec.toNat_setWidth, Nat.mod_eq_of_lt (by omega)]

/-- The addresses from 0xA up are reserved (20_memory.md rule R53). -/
theorem regAt_of_ten_le : ∀ a : BitVec 4, 0xA ≤ a.toNat → regAt a = .reserved := by
  decide

/-- A reserved address reads 0 (10_state.md rule R43). -/
theorem regRead_reserved (s : State) {a : BitVec 4} (ha : 0xA ≤ a.toNat) : regRead s a = 0x0000 := by
  rw [regRead, regAt_of_ten_le a ha]
  rfl

/-- Settles O32: READ's equation and its word, then the registers one address at a time, in the numbers of the frame's
bytes. -/
theorem readReturnsTheRegister : Obligations.ReadReturnsTheRegister := by
  intro s b
  have hb : ∀ j : Fin 5, (frameByte s.acc j).toNat = b j := frameByte_toNat s.acc
  have he : (expSum s.acc).toNat = (b 0 + b 1 + b 2 + b 3) % 256 := expSum_toNat s.acc
  refine ⟨fun a => ⟨exec_read a s, decode_read_word s.tw a, regRead_drive s _ a⟩, ?status, regRead_bitcnt_toNat s,
    toNat_zext16 s.thresh, toNat_zext16 s.tact, regRead_runcnt_toNat s, ?frame01, ?frame23, ?check, ?hum10, ?temp10,
    fun _ => regRead_reserved s, fun hok hacc => ?exampleFrame⟩
  case status =>
    rw [regRead_status, statusWord_toNat]
    cases s.result <;> cases s.phase <;> rfl
  case frame01 => rw [regRead_frame01, toNat_bytes, hb, hb]; rfl
  case frame23 => rw [regRead_frame23, toNat_bytes, hb, hb]; rfl
  case check => rw [regRead_check, toNat_bytes, he, hb]; rfl
  case hum10 =>
    split
    case isTrue h => rw [regRead_hum10_of_ok h, hb, hb]; rfl
    case isFalse h => rw [(regRead_reading_of_not_ok h).1]; rfl
  case temp10 =>
    split
    case isTrue h => rw [regRead_temp10_of_ok h, hb, hb]; rfl
    case isFalse h => rw [(regRead_reading_of_not_ok h).2]; rfl
  case exampleFrame =>
    rw [regRead_frame01, regRead_check, regRead_hum10, if_pos hok, hacc]
    decide

end Sys2Proof.Machine
end

section
/-! Proofs for 60_exceptions.md: the `done` output. -/

namespace Sys2Proof.Machine

/-! ### PHASE, by the command -/

/-- START enters CAPTURE, whichever phase it came in (43_control.md rule R142). -/
theorem exec_start_phase {s t : State} (h : exec .start s = .next t) : t.phase = .capture := by
  rw [exec_start] at h
  cases h
  rfl

/-- Only START and END write PHASE (10_state.md rule R44). -/
theorem exec_keeps_phase {i : Instr} {s t : State} (h : exec i s = .next t) (hstart : i ≠ .start)
    (hend : i ≠ .endCapture) : t.phase = s.phase := by
  rcases exec_cases h with ⟨-, rfl⟩ | ⟨x, -, -, rfl⟩ | ⟨x, -, -, rfl⟩ | ⟨hi, -⟩ | ⟨hi, -, -⟩ | ⟨hi, -, -⟩ |
    ⟨v, -, rfl⟩ | ⟨a, -, rfl⟩
  case inr.inl => simp [capturedSample_frame]
  case inr.inr.inr.inl => exact absurd hi hstart
  case inr.inr.inr.inr.inl => exact absurd hi hend
  case inr.inr.inr.inr.inr.inl => exact absurd hi hend
  all_goals simp

/-! ### PHASE, by the cycle -/

/-- A reset or a START leaves the machine in CAPTURE (10_state.md rule R28). -/
theorem clock_begin_phase {p : PortIn} {s t : State} (h : clock p s = .next t)
    (hb : beginsCapture s.tw p = true) : t.phase = .capture := by
  rcases clock_cases h with ⟨-, rfl⟩ | ⟨hr, -, hv, -⟩ | ⟨hr, -, hv, i, hd, he⟩ | ⟨hr, -, -, ⟨e, hd⟩, -⟩
  · rfl
  · simp [beginsCapture_idle s.tw hr hv] at hb
  · obtain rfl : i = .start := by simpa [beginsCapture_ok hr hv hd] using hb
    exact exec_start_phase he
  · simp [beginsCapture_error hr hd] at hb

/-- A cycle that issues END leaves the machine in DONE, unless reset wins (42_frame_decoder.md rules R123 and R124). -/
theorem clock_end_phase {p : PortIn} {s t : State} (h : clock p s = .next t) (hr : p.rst = false)
    (hv : p.cmdValid = true) (hd : decode s.tw p.cmd = .ok .endCapture) : t.phase = .done := by
  obtain ⟨hr', -⟩ | ⟨-, -, hv', -⟩ | ⟨-, -, -, i, hd', he⟩ | ⟨-, -, -, ⟨e, hd'⟩, -⟩ := clock_cases h
  · simp [hr] at hr'
  · simp [hv] at hv'
  · cases hd.symm.trans hd'
    exact exec_end_phase he
  · cases hd.symm.trans hd'

/-- Every cycle but a reset, a START or an END keeps PHASE (10_state.md rule R44). -/
theorem clock_keeps_phase {p : PortIn} {s t : State} (h : clock p s = .next t)
    (hb : beginsCapture s.tw p = false) (hend : ¬(p.cmdValid = true ∧ decode s.tw p.cmd = .ok .endCapture)) :
    t.phase = s.phase := by
  rcases clock_cases h with ⟨hr, -⟩ | ⟨-, -, -, rfl⟩ | ⟨hr, -, hv, i, hd, he⟩ | ⟨-, -, -, -, rfl⟩
  · simp [beginsCapture_reset s.tw hr] at hb
  · rfl
  · refine exec_keeps_phase he ?notStart ?notEnd
    case notStart => simpa [beginsCapture_ok hr hv hd] using hb
    case notEnd => rintro rfl; exact hend ⟨hv, hd⟩
  · rfl

/-! ### The pin -/

/-- After the first reset the `done` pin shows PHASE (60_exceptions.md rule R166). -/
theorem pinsOut_of_resetSeen {s : State} (h : s.resetSeen = true) :
    pinsOut s = some { rdata := s.rdata, done := s.phase == .done } :=
  if_pos h

/-- Settles O5: the pin shows PHASE, which a reset or START clears, END sets and every other cycle keeps. -/
theorem doneOutputIsPhaseLevel : Obligations.DoneOutputIsPhaseLevel := by
  intro s t p h
  obtain ⟨-, hseen, -⟩ := clock_keeps h
  refine ⟨⟨t.rdata, pinsOut_of_resetSeen hseen⟩, fun hb => ?falls, fun hr hv hd => ?rises, fun hb hend => ?stays⟩
  case falls => rw [doneLevel, clock_begin_phase h hb]; rfl
  case rises => rw [doneLevel, clock_end_phase h hr hv hd]; rfl
  case stays => rw [doneLevel, clock_keeps_phase h hb hend]; rfl

end Sys2Proof.Machine
end

section
/-! Proofs for 70_reset_and_hazards.md: the reset cycle. -/

namespace Sys2Proof.Machine

/-- After a reset cycle `rdata` is 0x0000 and `done` is low (70_reset_and_hazards.md rule R185, 60_exceptions.md rule
R166). -/
theorem pinsOut_toReset (s : State) : pinsOut s.toReset = some { rdata := 0x0000, done := false } :=
  pinsOut_of_resetSeen s.toReset_resetSeen

/-- Settles O2: a reset cycle goes to `s.toReset`, which does not mention the pins, so no command can leave a trace. -/
theorem resetCycleLosesCommand : Obligations.ResetCycleLosesCommand := by
  intro s p q hp hq
  have hclock : clock p s = .next s.toReset := clock_reset p s hp
  refine ⟨hclock.trans (clock_reset q s hq).symm, s.toReset, hclock, ?elements⟩
  case elements => simp [pinsOut_toReset]

end Sys2Proof.Machine
end

section
/-! Proofs for 30_encoding.md: the decoder and the encoder are inverse, the opcode map, and the assembler. -/

namespace Sys2Proof.Machine

/-! ### Encoding and decoding -/

/-- A command word in numbers: the opcode in `cmd[15:12]`, the operand in `cmd[11:0]` (30_encoding.md rule R66). -/
theorem encode_toNat (i : Instr) :
    (encode i).toNat = 4096 * (opcodeOf i).toNat + (operandOf i).toNat := by
  have h := BitVec.toNat_append (opcodeOf i) (operandOf i)
  rw [← Nat.shiftLeft_add_eq_or_of_lt (operandOf i).isLt, Nat.shiftLeft_eq, Nat.mul_comm] at h
  exact h

/-- The word of a command is the one word that has its two fields. -/
theorem encode_eq_iff (i : Instr) (w : Word) :
    encode i = w ↔ w.toNat / 4096 = (opcodeOf i).toNat ∧ w.toNat % 4096 = (operandOf i).toNat := by
  have hlt := (operandOf i).isLt
  rw [← BitVec.toNat_inj, encode_toNat]
  omega

/-- Settles O8: each command's word is the one that its row's decoding lemma reads back. -/
theorem decodeEncodeAgree : Obligations.DecodeEncodeAgree := by
  intro tw i hwf
  cases i with
  | nop => exact decode_nop_word tw
  | sample x =>
    cases x
    · exact (decode_sample_words tw).1
    · exact (decode_sample_words tw).2
  | start => exact decode_start_word tw
  | endCapture => exact decode_end_word tw
  | wrth v =>
    have hword : encode (.wrth v) = 0x4000 ||| v.setWidth 16 :=
      BitVec.eq_of_toNat_eq ((encode_toNat (.wrth v)).trans (toNat_opcode_or_operand (op := 4) rfl le_rfl v).symm)
    rw [hword]
    exact decode_wrth_word (of_decide_eq_true hwf)
  | read a =>
    have hword : ∀ a : BitVec 4, encode (.read a) = 0x5000 ||| a.setWidth 16 := by decide
    rw [hword]
    exact decode_read_word tw a

/-- A row accepts with its command exactly where the row's test holds. -/
theorem ite_ok_eq_ok_iff {c : Prop} [Decidable c] (i j : Instr) (r : IllegalWord) :
    (if c then Except.ok i else Except.error r) = Except.ok j ↔ c ∧ i = j := by
  by_cases h : c <;> simp [h]

/-- Settles O9: in each row the operand below the row's bound is the whole operand field, and the opcode is the row's. -/
theorem encodeDecodeAgree : Obligations.EncodeDecodeAgree := by
  intro tw w i hd
  obtain ⟨nop, sample, start, endCapture, wrth, read, illegal⟩ := decodeEveryWord tw w
  rw [encode_eq_iff]
  obtain h | h | h | h | h | h | h : w.toNat / 4096 = 0 ∨ w.toNat / 4096 = 1 ∨ w.toNat / 4096 = 2 ∨
      w.toNat / 4096 = 3 ∨ w.toNat / 4096 = 4 ∨ w.toNat / 4096 = 5 ∨ 6 ≤ w.toNat / 4096 := by omega
  · obtain ⟨hzero, rfl⟩ := (ite_ok_eq_ok_iff ..).1 ((nop h).symm.trans hd)
    exact ⟨⟨h, hzero⟩, rfl⟩
  · obtain ⟨hlt, rfl⟩ := (ite_ok_eq_ok_iff ..).1 ((sample h).symm.trans hd)
    refine ⟨⟨h, ?_⟩, rfl⟩
    obtain hs | hs : w.toNat % 2 = 0 ∨ w.toNat % 2 = 1 := by omega
    all_goals simp [operandOf, hs]; omega
  · obtain ⟨hzero, rfl⟩ := (ite_ok_eq_ok_iff ..).1 ((start h).symm.trans hd)
    exact ⟨⟨h, hzero⟩, rfl⟩
  · obtain ⟨hzero, rfl⟩ := (ite_ok_eq_ok_iff ..).1 ((endCapture h).symm.trans hd)
    exact ⟨⟨h, hzero⟩, rfl⟩
  · obtain ⟨hlt, rfl⟩ := (ite_ok_eq_ok_iff ..).1 ((wrth h).symm.trans hd)
    exact ⟨⟨h, (BitVec.toNat_ofNat _ 12).symm⟩, decide_eq_true (by simpa using hlt)⟩
  · obtain ⟨hlt, rfl⟩ := (ite_ok_eq_ok_iff ..).1 ((read h).symm.trans hd)
    refine ⟨⟨h, ?_⟩, rfl⟩
    simp [operandOf]
    omega
  · cases (illegal h).symm.trans hd

/-- A word decodes to a command exactly where the command is well-formed and the word is its encoding. -/
theorem decode_ok_iff (tw : ThreshWidth) (w : Word) (i : Instr) :
    decode tw w = .ok i ↔ i.wellFormed tw = true ∧ encode i = w := by
  constructor
  · exact fun h => (encodeDecodeAgree tw w i h).symm
  · rintro ⟨hwf, rfl⟩
    exact decodeEncodeAgree tw i hwf

/-! ### The opcode map -/

/-- The mask of a row whose operand is `n` bits wide: every bit but the `n` lowest (30_encoding.md rule R76). -/
def rowMask (n : Nat) : Word := BitVec.allOnes 16 <<< n

/-- A row's mask clears the operand: it keeps the word's bits from `n` up. -/
theorem toNat_and_rowMask (w : Word) (n : Nat) :
    (w &&& rowMask n).toNat = 2 ^ n * (w.toNat / 2 ^ n) := by
  have hle : 2 ^ n * (w.toNat / 2 ^ n) < 2 ^ 16 := (Nat.mul_div_le ..).trans_lt w.isLt
  rw [rowMask, ← BitVec.shiftLeft_ushiftRight, BitVec.toNat_shiftLeft, BitVec.toNat_ushiftRight,
    Nat.shiftRight_eq_div_pow, Nat.shiftLeft_eq, Nat.mul_comm, Nat.mod_eq_of_lt hle]

/-- A word matches the row of opcode `k` under its mask exactly where the opcode is `k` and the operand is below `2 ^ n`. -/
theorem and_rowMask_eq_iff (w m : Word) {n k : Nat} (hn : n ≤ 12) (hm : m.toNat = 4096 * k) :
    w &&& rowMask n = m ↔ w.toNat / 4096 = k ∧ w.toNat % 4096 < 2 ^ n := by
  have hle : 2 ^ n ≤ 2 ^ 12 := Nat.pow_le_pow_right (by decide) hn
  have hpos : 0 < 2 ^ n := Nat.two_pow_pos n
  have hmod : w.toNat % 4096 % 2 ^ n = w.toNat % 2 ^ n := Nat.mod_mod_of_dvd _ (pow_dvd_pow 2 hn)
  have hdiv : 2 ^ n * (w.toNat / 2 ^ n) + w.toNat % 2 ^ n = w.toNat := Nat.div_add_mod ..
  rw [← BitVec.toNat_inj, toNat_and_rowMask w n, hm]
  constructor
  · intro h
    have := Nat.mod_lt w.toNat hpos
    omega
  · rintro ⟨hk, hlt⟩
    rw [Nat.mod_eq_of_lt hlt] at hmod
    omega

/-- WRTH's mask for a general TW is the one of a row with a TW-bit operand. -/
theorem wrthMask_eq_rowMask {n : Nat} (hn : n ≤ 12) :
    (0xF000 ||| (0x0FFF &&& ~~~(BitVec.twoPow 16 n - 1)) : Word) = rowMask n := by
  interval_cases n <;> decide

/-- The two ways of rule R72 to be illegal, an opcode from 6 up or a reserved operand bit, together say that the opcode
and the operand are in no row's range. -/
theorem illegal_iff_no_row (op operand bound : Nat) :
    (6 ≤ op ∨ (op ∈ [0, 2, 3] ∧ operand ≠ 0) ∨ (op = 1 ∧ 2 ≤ operand) ∨ (op = 4 ∧ bound ≤ operand) ∨
      (op = 5 ∧ 16 ≤ operand)) ↔
    ¬(op = 0 ∧ operand < 2 ^ 0) ∧ ¬(op = 1 ∧ operand < 2 ^ 1) ∧ ¬(op = 2 ∧ operand < 2 ^ 0) ∧
      ¬(op = 3 ∧ operand < 2 ^ 0) ∧ ¬(op = 4 ∧ operand < bound) ∧ ¬(op = 5 ∧ operand < 2 ^ 4) := by
  match op with
  | 0 | 2 | 3 | 4 | 5 => simp
  | 1 => simp [Nat.succ_le_iff]
  | n + 6 => simp

/-- Settles O7: a row's match, and the encoding of a well-formed command, in the numbers of the word's two fields. -/
theorem opcodeMapMatchAndMask : Obligations.OpcodeMapMatchAndMask := by
  intro tw w
  have hbits := tw.le_twelve
  intro wrthMask
  have hwrth : wrthMask = rowMask tw.bits := wrthMask_eq_rowMask hbits
  have nop := and_rowMask_eq_iff w 0x0000 (n := 0) (k := 0) (by decide) rfl
  have sample := and_rowMask_eq_iff w 0x1000 (n := 1) (k := 1) (by decide) rfl
  have start := and_rowMask_eq_iff w 0x2000 (n := 0) (k := 2) (by decide) rfl
  have endCapture := and_rowMask_eq_iff w 0x3000 (n := 0) (k := 3) (by decide) rfl
  have wrth := and_rowMask_eq_iff w 0x4000 (k := 4) hbits rfl
  have read := and_rowMask_eq_iff w 0x5000 (n := 4) (k := 5) (by decide) rfl
  have h0 : rowMask 0 = 0xFFFF := rfl
  have h1 : rowMask 1 = 0xFFFE := rfl
  have h4 : rowMask 4 = 0xFFF0 := rfl
  rw [h0] at nop start endCapture
  rw [h1] at sample
  rw [h4] at read
  rw [hwrth, nop, sample, start, endCapture, wrth, read, decode_error_iff]
  simp only [decode_ok_iff, encode_eq_iff]
  refine ⟨?nop, fun x => ?sample, ?start, ?endCapture, fun v => ?wrth, fun a => ?read, ?illegal, ?standard⟩
  case nop => simp [Instr.wellFormed, opcodeOf, operandOf]
  case sample =>
    have hx : w.getLsbD 0 = decide (w.toNat % 2 = 1) := sampleField_eq w
    rw [hx]
    cases x <;> simp [Instr.wellFormed, opcodeOf, operandOf] <;> omega
  case start => simp [Instr.wellFormed, opcodeOf, operandOf]
  case endCapture => simp [Instr.wellFormed, opcodeOf, operandOf]
  case wrth =>
    simp only [Instr.wellFormed, opcodeOf, operandOf, decide_eq_true_eq, BitVec.reduceToNat]
    have hmod : w.toNat % 4096 % 2 ^ tw.bits = w.toNat % 2 ^ tw.bits := Nat.mod_mod_of_dvd _ (pow_dvd_pow 2 hbits)
    constructor
    · rintro ⟨hv, hop, hoper⟩
      rw [hoper, Nat.mod_eq_of_lt hv] at hmod
      omega
    · rintro ⟨⟨hop, hlt⟩, hv⟩
      rw [Nat.mod_eq_of_lt hlt] at hmod
      omega
  case read =>
    simp only [Instr.wellFormed, opcodeOf, operandOf, ← BitVec.toNat_inj, BitVec.toNat_setWidth, BitVec.extractLsb'_toNat,
      Nat.shiftRight_zero, BitVec.reduceToNat, true_and]
    omega
  case illegal =>
    simp only [ne_eq, nop, sample, start, endCapture, wrth, read]
    exact illegal_iff_no_row ..
  case standard => rintro rfl; decide

/-- Settles O10: the words at TW = 8 by the decoder, those at TW = 12 by it too, in the one build that has that width. -/
theorem specWordsDecode : Obligations.SpecWordsDecode := by
  refine ⟨by decide, by decide, by decide, by decide, by decide, by decide, by decide, by decide, by decide, by decide,
    fun tw h12 => ?_⟩
  obtain rfl : tw = ⟨12, by decide, by decide⟩ := by cases tw; simpa using h12
  decide

/-! ### The assembler -/

/-- Every command of the list can be encoded in the build. -/
def EncodableCmds (tw : ThreshWidth) (cmds : List Instr) : Prop := ∀ i ∈ cmds, i.wellFormed tw = true

theorem encodableCmds_singleton {tw : ThreshWidth} {i : Instr} (h : i.wellFormed tw = true) : EncodableCmds tw [i] := by
  simpa [EncodableCmds] using h

theorem encodableCmds_append {tw : ThreshWidth} {as bs : List Instr} (ha : EncodableCmds tw as)
    (hb : EncodableCmds tw bs) : EncodableCmds tw (as ++ bs) :=
  List.forall_mem_append.2 ⟨ha, hb⟩

theorem encodableCmds_flatten {α : Type} {tw : ThreshWidth} {f : α → List Instr} (h : ∀ a, EncodableCmds tw (f a))
    (as : List α) : EncodableCmds tw (as.map f).flatten := by
  intro i hi
  obtain ⟨cmds, hcmds, hmem⟩ := List.mem_flatten.1 hi
  obtain ⟨a, -, rfl⟩ := List.mem_map.1 hcmds
  exact h a i hmem

/-- The pulses of rule R81 are SAMPLE commands, which every build can encode. -/
theorem encodableCmds_replicate_sample (tw : ThreshWidth) (n : Nat) (x : Bool) :
    EncodableCmds tw (List.replicate n (.sample x)) := by
  intro i hi
  rw [List.eq_of_mem_replicate hi]
  rfl

theorem encodableCmds_sendBit (tw : ThreshWidth) (t : Nat) (b : Bool) : EncodableCmds tw (sendBitCmds t b) := by
  have hpulse : ∀ n, EncodableCmds tw (highCmds n ++ lowCmds 1) := fun n =>
    encodableCmds_append (encodableCmds_replicate_sample tw n true) (encodableCmds_replicate_sample tw 1 false)
  cases b
  · exact hpulse 1
  · exact hpulse (t + 1)

theorem encodableCmds_sendByte (tw : ThreshWidth) (t : Nat) (x : Byte) : EncodableCmds tw (sendByteCmds t x) :=
  encodableCmds_flatten (encodableCmds_sendBit tw t) _

theorem encodableCmds_sendFrame (tw : ThreshWidth) (t : Nat) (bytes : List Byte) :
    EncodableCmds tw (sendFrameCmds t bytes) :=
  encodableCmds_flatten (encodableCmds_sendByte tw t) _

/-- A threshold in range makes an encodable WRTH (30_encoding.md rule R80). -/
theorem wellFormed_wrth_ofNat {tw : ThreshWidth} {v : Nat} (hv : v < 2 ^ tw.bits) :
    (Instr.wrth (BitVec.ofNat 12 v)).wellFormed tw = true :=
  decide_eq_true ((BitVec.toNat_ofNat v 12).trans_le (Nat.mod_le ..) |>.trans_lt hv)

/-- The words of encodable commands decode. -/
theorem decode_of_mem_map_encode {tw : ThreshWidth} {cmds : List Instr} (h : EncodableCmds tw cmds) {w : Word}
    (hw : w ∈ cmds.map encode) : ∃ i, decode tw w = .ok i := by
  obtain ⟨i, hi, rfl⟩ := List.mem_map.1 hw
  exact ⟨i, decodeEncodeAgree tw i (h i hi)⟩

/-- A line whose operands are checked gives its commands' words, and its check holds. -/
theorem inRange_ok {ok : Bool} {cmds : List Instr} {ws : List Word} (h : inRange ok cmds = .ok ws) :
    ok = true ∧ ws = cmds.map encode := by
  cases ok
  · cases h
  · cases h; exact ⟨rfl, rfl⟩

/-- Every accepted line but `.word` gives the words of commands that the build can encode (30_encoding.md rules R80 and
R81). -/
theorem assembleLine_encodable {tw : ThreshWidth} {l : AsmLine} {ws : List Word} (h : assembleLine tw l = .ok ws)
    (hl : ∀ w, l ≠ .word w) : ∃ cmds, EncodableCmds tw cmds ∧ ws = cmds.map encode := by
  cases l with
  | nop => cases h; exact ⟨[.nop], encodableCmds_singleton rfl, rfl⟩
  | start => cases h; exact ⟨[.start], encodableCmds_singleton rfl, rfl⟩
  | endCapture => cases h; exact ⟨[.endCapture], encodableCmds_singleton rfl, rfl⟩
  | sample s => exact ⟨_, encodableCmds_singleton rfl, (inRange_ok h).2⟩
  | read a => exact ⟨_, encodableCmds_singleton rfl, (inRange_ok h).2⟩
  | wrth v =>
    obtain ⟨hv, hws⟩ := inRange_ok h
    exact ⟨_, encodableCmds_singleton (wellFormed_wrth_ofNat (of_decide_eq_true hv)), hws⟩
  | setT v =>
    obtain ⟨hv, hws⟩ := inRange_ok h
    have hwrth := wellFormed_wrth_ofNat (of_decide_eq_true hv)
    exact ⟨_, encodableCmds_append (encodableCmds_singleton hwrth) (encodableCmds_singleton (i := .start) rfl), hws⟩
  | word w => exact absurd rfl (hl w)
  | samples bits =>
    cases h
    refine ⟨bits.map .sample, ?_, by rw [List.map_map]; rfl⟩
    intro i hi
    obtain ⟨b, -, rfl⟩ := List.mem_map.1 hi
    rfl
  | high n => cases h; exact ⟨_, encodableCmds_replicate_sample tw n true, rfl⟩
  | low n => cases h; exact ⟨_, encodableCmds_replicate_sample tw n false, rfl⟩
  | sendBit b t => exact ⟨_, encodableCmds_sendBit tw t _, (inRange_ok h).2⟩
  | sendByte x t => exact ⟨_, encodableCmds_sendByte tw t _, (inRange_ok h).2⟩
  | sendFrame b0 b1 b2 b3 b4 t => exact ⟨_, encodableCmds_sendFrame tw t _, (inRange_ok h).2⟩

/-- Settles O11: an accepted line's words are those of encodable commands, which decode. -/
theorem assemblerEmitsLegalWords : Obligations.AssemblerEmitsLegalWords := by
  intro tw l ws h hl w hw
  obtain ⟨cmds, hcmds, rfl⟩ := assembleLine_encodable h hl
  exact decode_of_mem_map_encode hcmds hw

end Sys2Proof.Machine
end

section
/-! Proofs for 43_control.md rule R146, 20_memory.md rule R58 and 10_state.md rule R44: the step, the host's stream and the
write matrix. -/

namespace Sys2Proof.Machine

/-! ### The cycle -/

/-- Settles O3: without reset the cycle faults, and the pins have no value. -/
theorem unresetMachineIsStuck : Obligations.UnresetMachineIsStuck := fun s p hs hr =>
  ⟨clock_unreset p s hr hs, if_neg (by simp [hs])⟩

/-- A command drives the register it reads if it is a READ, and 0x0000 otherwise (43_control.md rules R141 to R144). -/
theorem exec_rdata {i : Instr} {s t : State} (h : exec i s = .next t) :
    t.rdata = match i with | .read a => regRead s a | _ => 0x0000 := by
  rcases exec_cases h with ⟨rfl, rfl⟩ | ⟨x, rfl, hp, rfl⟩ | ⟨x, rfl, hp, rfl⟩ | ⟨rfl, rfl⟩ | ⟨rfl, hp, rfl⟩ |
    ⟨rfl, hp, rfl⟩ | ⟨v, rfl, rfl⟩ | ⟨a, rfl, rfl⟩ <;> rfl

/-- Settles O4: every cycle but a command drives 0x0000, and a command does so unless it is a READ. -/
theorem rdataOnlyForRead : Obligations.RdataOnlyForRead := by
  intro s t p h
  rcases clock_cases h with ⟨hr, rfl⟩ | ⟨hr, -, hv, rfl⟩ | ⟨hr, -, hv, i, hd, he⟩ | ⟨hr, -, hv, ⟨e, hd⟩, rfl⟩
  · simp [hr]
  · simp [hv]
  · rw [exec_rdata he, hr, hv, hd]
    cases i <;> simp
  · simp [hd]

/-! ### The step -/

/-- The step in a state whose stream has a next cycle. -/
theorem step_cons {s : State} {p : PortIn} {rest : List PortIn} (h : s.input = p :: rest) :
    step s = clock p (s.withInput rest) := by
  simp [step, nextCycle, afterTaking, h]

/-- Settles O36: the step clocks in the stream's first cycle, or an idle one where there is none. -/
theorem stepRunsTheDecodedCommand : Obligations.StepRunsTheDecodedCommand := by
  refine ⟨fun s w rest hs hin => ?stream, fun s w i hs hd => ?placed, fun s hs hin => ?idle⟩
  case stream =>
    rw [step_cons hin]
    exact ⟨fun i hd => clock_command w _ i hs hd, fun e hd => clock_illegal_word hs hd⟩
  case placed =>
    have hw : tableWord 16 w.toNat = w := by simp [tableWord, Nat.mod_eq_of_lt w.isLt]
    have hin : (s.withFetchWord 16 w.toNat).input = commandCycle w :: s.input := by
      rw [State.withFetchWord, hw]; rfl
    rw [step_cons hin]
    exact clock_command w _ i hs hd
  case idle =>
    have hstep : step s = clock idleCycle s := by
      cases s; cases hin; rfl
    rw [hstep]
    exact clock_idle idleCycle s rfl hs rfl

/-- After the first reset every step goes on (43_control.md rule R146). -/
theorem goesOn_of_resetSeen {s : State} (hs : s.resetSeen = true) : goesOn s := by
  obtain ⟨t, ht, -⟩ := clock_total (nextCycle s) (afterTaking s) (.inr hs)
  exact ⟨t, ht⟩

/-- Settles O39: what a cycle keeps, from the state with its cycle taken. -/
theorem stepTakesOneCycleAndKeepsTheBuild : Obligations.StepTakesOneCycleAndKeepsTheBuild :=
  fun _ _ h => clock_keeps h

/-- Settles O37: commands are total, and a step leaves a machine that was reset. -/
theorem stepNeverStops : Obligations.StepNeverStops := by
  refine ⟨fun i s => ?command, fun s => goesOn_of_resetSeen, fun s t h => ?again⟩
  case command =>
    obtain ⟨t, ht, -, hseen, -⟩ := exec_total i s
    exact ⟨t, ht, hseen⟩
  case again =>
    obtain ⟨-, hseen, -⟩ := clock_keeps h
    exact goesOn_of_resetSeen hseen

/-- The cycle's outcome does not depend on the host's later cycles, which it leaves in the state. -/
theorem clock_withInput_cases (p : PortIn) (s : State) :
    (∃ t : State, ∀ l, clock p (s.withInput l) = .next (t.withInput l)) ∨
      ∀ l, clock p (s.withInput l) = .fault .beforeFirstReset := by
  by_cases h : ∃ t, clock p s = .next t
  · obtain ⟨t, ht⟩ := h
    exact .inl ⟨t, fun l => clock_withInput l ht⟩
  · obtain ⟨hr, hs, -⟩ := clock_stops (not_exists.1 h)
    exact .inr fun l => clock_unreset p _ hr hs

/-- The host's run of this core, where the first step goes on. -/
theorem core_run_of_next {s t : State} (k : Nat) (h : step s = .next t) :
    Host.Core.run core (k + 1) s = Host.Core.run core k t := by
  have hcore : core.step s = .next t := h
  rw [run_succ core k s, hcore]

/-- The host's run of this core, where the first step faults. -/
theorem core_run_of_fault {s : State} {r : Fault} (k : Nat) (h : step s = .fault r) :
    Host.Core.run core (k + 1) s = .fault r := by
  have hcore : core.step s = .fault r := h
  rw [run_succ core k s, hcore]

/-- Settles O38, by induction on the cycles: each step takes the first, which neither reads nor changes the rest. -/
theorem runIsTheFoldOfCycles : Obligations.RunIsTheFoldOfCycles := by
  intro ps rest s
  induction ps generalizing s with
  | nil => rfl
  | cons p ps ih =>
    have hstep : step (s.withInput (p :: (ps ++ rest))) = clock p (s.withInput (ps ++ rest)) := step_cons rfl
    obtain ⟨t, ht⟩ | hf := clock_withInput_cases p s
    · rw [runCycles_cons ps (ht rest)]
      exact (core_run_of_next ps.length (hstep.trans (ht _))).trans (ih t)
    · have hfault : runCycles (p :: ps) (s.withInput rest) = .fault .beforeFirstReset := by simp [runCycles, hf]
      rw [hfault]
      exact core_run_of_fault ps.length (hstep.trans (hf _))

/-! ### The write matrix -/

/-- Settles O40: by the cases of a cycle that goes on; a command's own cases say which elements it writes. -/
theorem onlyTheListedWriters : Obligations.OnlyTheListedWriters := by
  intro s t p h runs illegal begins samples
  rcases clock_cases h with ⟨hr, rfl⟩ | ⟨hr, -, hv, rfl⟩ | ⟨hr, -, hv, i, hd, he⟩ | ⟨hr, -, hv, ⟨e, hd⟩, rfl⟩
  · simp [begins, runs, samples, illegal, hr]
  · simp [begins, runs, samples, illegal, hr, hv]
  · have hruns : ∀ j, runs j ↔ i = j := by simp [runs, hr, hv, hd]
    have hbegins : begins ↔ i = .start := by simp [begins, hruns, hr]
    have hsamples : samples ↔ ∃ x, i = .sample x := by simp [samples, hruns]
    have hillegal : ¬illegal := by simp [illegal, hd]
    simp only [hruns, hbegins, hsamples, hillegal]
    rcases exec_cases he with ⟨rfl, rfl⟩ | ⟨x, rfl, hp, rfl⟩ | ⟨x, rfl, hp, rfl⟩ | ⟨rfl, rfl⟩ | ⟨rfl, hp, rfl⟩ |
      ⟨rfl, hp, rfl⟩ | ⟨v, rfl, rfl⟩ | ⟨a, rfl, rfl⟩
    · simp [hr]
    · simp [hp, hr, capturedSample_frame]
    · simp [hp, hr]
    · simp [hr]
    · simp [hp, hr]
    · simp [hp, hr]
    · simp [hr, threshOperand_of_lt s.tw v (decode_wrth_lt hd)]
    · simp [hr]
  · simp [begins, runs, samples, illegal, hr, hv, hd]

end Sys2Proof.Machine
end

section
/-! Proofs for 10_state.md rule R45 and 70_reset_and_hazards.md rule R186: the invariants, and ResetState. -/

namespace Sys2Proof.Machine

/-! ### ResetState -/

/-- ResetState reads the same in every build (70_reset_and_hazards.md rule R186). -/
theorem regRead_resetFor (tw : ThreshWidth) (a : BitVec 4) :
    regRead (State.resetFor tw) a = if a = 0x2 ∨ a = 0x3 then 0x0003 else 0x0000 := by
  have hbuild : regRead (State.resetFor tw) a = regRead State.reset a := by
    unfold regRead
    cases regAt a <;> rfl
  have hreset : ∀ a : BitVec 4, regRead State.reset a = if a = 0x2 ∨ a = 0x3 then 0x0003 else 0x0000 := by decide
  rw [hbuild, hreset]

/-- Settles O1: the fields are ResetState's by definition, READ by address, and START in a state with THRESH = 3 by its
equation. -/
theorem resetStateValues : Obligations.ResetStateValues := by
  refine ⟨rfl, fun tw => ⟨rfl, rfl, rfl, rfl, rfl, rfl, rfl, rfl, rfl, rfl, regRead_resetFor tw, fun s _ hthresh => ?_⟩⟩
  exact ⟨_, exec_start s, rfl, rfl, rfl, rfl, hthresh, hthresh, rfl, rfl, rfl, rfl⟩

/-! ### The invariants, one update at a time -/

theorem State.Inv.resetFor (tw : ThreshWidth) : (State.resetFor tw).Inv where
  bitcnt_le := Nat.zero_le _
  acc_clear _ _ := BitVec.getLsbD_zero
  runcnt_pos h := nomatch h
  result_none := ⟨fun _ => rfl, fun _ => rfl⟩
  tact_le := three_le_tmax tw
  thresh_le := three_le_tmax tw
  runcnt_le := Nat.zero_le _

/-- Settles O44: ResetState in any build; TW = 8 is one of them. -/
theorem invariantsHoldAtReset : Obligations.InvariantsHoldAtReset :=
  ⟨State.Inv.resetFor ThreshWidth.standard, State.Inv.resetFor⟩

section

variable {s : State}

theorem State.Inv.toReset (s : State) : s.toReset.Inv :=
  have h := State.Inv.resetFor s.tw
  ⟨h.bitcnt_le, h.acc_clear, h.runcnt_pos, h.result_none, h.tact_le, h.thresh_le, h.runcnt_le⟩

theorem State.Inv.drive (h : s.Inv) (v : Word) : (s.drive v).Inv :=
  ⟨h.bitcnt_le, h.acc_clear, h.runcnt_pos, h.result_none, h.tact_le, h.thresh_le, h.runcnt_le⟩

theorem State.Inv.raiseLate (h : s.Inv) : s.raiseLate.Inv :=
  ⟨h.bitcnt_le, h.acc_clear, h.runcnt_pos, h.result_none, h.tact_le, h.thresh_le, h.runcnt_le⟩

theorem State.Inv.raiseIllcmd (h : s.Inv) : s.raiseIllcmd.Inv :=
  ⟨h.bitcnt_le, h.acc_clear, h.runcnt_pos, h.result_none, h.tact_le, h.thresh_le, h.runcnt_le⟩

theorem State.Inv.withInput (h : s.Inv) (ps : List PortIn) : (s.withInput ps).Inv :=
  ⟨h.bitcnt_le, h.acc_clear, h.runcnt_pos, h.result_none, h.tact_le, h.thresh_le, h.runcnt_le⟩

theorem State.Inv.setThresh (h : s.Inv) {v : BitVec 12} (hv : v.toNat ≤ tmax s.tw) : (s.setThresh v).Inv :=
  ⟨h.bitcnt_le, h.acc_clear, h.runcnt_pos, h.result_none, h.tact_le, hv, h.runcnt_le⟩

theorem State.Inv.setSegmenter (h : s.Inv) {x : Bool} {c : BitVec 13} (hpos : x = true → 1 ≤ c.toNat)
    (hle : c.toNat ≤ cmax s.tw) : (s.setSegmenter x c).Inv :=
  ⟨h.bitcnt_le, h.acc_clear, hpos, h.result_none, h.tact_le, h.thresh_le, hle⟩

theorem State.Inv.recordResult (h : s.Inv) {r : Result} (hr : r ≠ .none) : (s.recordResult r).Inv :=
  ⟨h.bitcnt_le, h.acc_clear, h.runcnt_pos, by simp [hr], h.tact_le, h.thresh_le, h.runcnt_le⟩

/-- A new capture is ResetState's but for the threshold, which START latches. -/
theorem State.Inv.beginCapture (h : s.Inv) : s.beginCapture.Inv :=
  have hreset := State.Inv.resetFor s.tw
  ⟨hreset.bitcnt_le, hreset.acc_clear, hreset.runcnt_pos, hreset.result_none, h.thresh_le, h.thresh_le,
    hreset.runcnt_le⟩

/-- A stored bit goes to the highest clear position, and the ones below it stay clear (10_state.md rule R45, point 2). -/
theorem State.Inv.accPush (h : s.Inv) (b : Bool) : (s.accPush b).Inv := by
  by_cases hb : s.bitcnt.toNat < 40
  case pos =>
    have hcount := accPush_bitcnt_toNat s b hb
    refine ⟨by omega, fun i hi => ?_, h.runcnt_pos, h.result_none, h.tact_le, h.thresh_le, h.runcnt_le⟩
    rw [accPush_getLsbD s b i hb, if_neg (by omega)]
    exact h.acc_clear i (by omega)
  case neg => rwa [accPush_full s b (by omega)]

/-- A captured sample keeps the invariants: a rise starts the count at 1, a high sample counts up to CMAX. -/
theorem State.Inv.capturedSample (h : s.Inv) (x : Bool) : (s.capturedSample x).Inv := by
  have hcmax := tmax_lt_cmax s.tw
  cases hp : s.prev <;> cases x
  case false.false =>
    rw [capturedSample_low s hp]
    exact h.setSegmenter (by simp) h.runcnt_le
  case false.true =>
    rw [capturedSample_rise s hp]
    exact h.setSegmenter (fun _ => le_rfl) (Nat.one_le_of_lt hcmax)
  case true.false =>
    rw [capturedSample_fall s hp]
    exact (h.setSegmenter (by simp) h.runcnt_le).accPush _
  case true.true =>
    have hcount := satInc_toNat s.tw s.runcnt h.runcnt_le
    rw [capturedSample_high s hp]
    exact h.setSegmenter (fun _ => by omega) (by omega)

/-- WRTH's value is at most TMAX, whatever its operand (20_memory.md rule R56). -/
theorem threshOperand_le_tmax (tw : ThreshWidth) (v : BitVec 12) : (threshOperand tw v).toNat ≤ tmax tw := by
  rw [threshOperand_toNat]
  exact Nat.le_pred_of_lt (Nat.mod_lt _ (Nat.two_pow_pos _))

/-! ### The invariants, by the command and the cycle -/

theorem exec_keeps_inv {i : Instr} {t : State} (h : s.Inv) (he : exec i s = .next t) : t.Inv := by
  rcases exec_cases he with ⟨-, rfl⟩ | ⟨x, -, -, rfl⟩ | ⟨x, -, -, rfl⟩ | ⟨-, rfl⟩ | ⟨-, -, rfl⟩ | ⟨-, -, rfl⟩ |
    ⟨v, -, rfl⟩ | ⟨a, -, rfl⟩
  · exact h.drive _
  · exact (h.capturedSample x).drive _
  · exact h.raiseLate.drive _
  · exact h.beginCapture.drive _
  · exact (h.recordResult (judge_ne_none _ _)).drive _
  · exact h.drive _
  · exact (h.setThresh (threshOperand_le_tmax s.tw v)).drive _
  · exact h.drive _

theorem clock_keeps_inv {p : PortIn} {t : State} (h : s.Inv) (hc : clock p s = .next t) : t.Inv := by
  rcases clock_cases hc with ⟨-, rfl⟩ | ⟨-, -, -, rfl⟩ | ⟨-, -, -, i, -, he⟩ | ⟨-, -, -, -, rfl⟩
  · exact State.Inv.toReset s
  · exact h.drive _
  · exact exec_keeps_inv h he
  · exact h.raiseIllcmd.drive _

end

/-- Settles O45: the cycle keeps the invariants, and taking it off the stream does too. -/
theorem stepKeepsInvariants : Obligations.StepKeepsInvariants := fun _ _ h hstep =>
  clock_keeps_inv (h.withInput _) hstep

/-! ### The widths of the registers and of WRTH's value -/

/-- A register whose field is below `2 ^ k` reads 0 in every bit from `k` up. -/
theorem getLsbD_setWidth16_of_lt {w k n : Nat} {x : BitVec w} (hx : x.toNat < 2 ^ k) (hn : k ≤ n) :
    (x.setWidth 16).getLsbD n = false := by
  rw [BitVec.getLsbD_setWidth, BitVec.getLsbD, Nat.testBit_lt_two_pow (hx.trans_le (Nat.pow_le_pow_right (by decide) hn)),
    Bool.and_false]

/-- Settles O33: the invariants bound THRESH and TACT by TMAX and RUNCNT by CMAX. -/
theorem reservedBitsReadZero : Obligations.ReservedBitsReadZero := by
  intro s h
  have hlt : ∀ {x k : Nat}, x ≤ 2 ^ k - 1 → x < 2 ^ k := fun hx => Nat.lt_of_le_pred (Nat.two_pow_pos _) hx
  exact ⟨fun n hn => ⟨getLsbD_setWidth16_of_lt (hlt h.thresh_le) hn, getLsbD_setWidth16_of_lt (hlt h.tact_le) hn⟩,
    fun n hn => getLsbD_setWidth16_of_lt (hlt h.runcnt_le) hn⟩

/-- Settles O31: WRTH's equation, and its value in numbers. -/
theorem wrthMovesLowBits : Obligations.WrthMovesLowBits := fun s v =>
  ⟨_, exec_wrth v s, threshOperand_toNat s.tw v, rfl⟩

end Sys2Proof.Machine
end

section
/-! Proofs for 40_segmenter.md section 4 and 41_classifier.md: the hardware's pulses against the reference's, the classifier
and the accumulator. -/

namespace Sys2Proof.Machine

/-! ### The reference segmenter (40_segmenter.md rule R90) -/

/-- The count before the first rising edge is never emitted (93_implementation_defined.md U3). -/
theorem segmentFrom_false_count (samples : List Bool) (c c' : Nat) :
    segmentFrom false c samples = segmentFrom false c' samples := by
  induction samples with
  | nil => rfl
  | cons x rest ih => cases x <;> simp [segmentFrom, ih]

/-- A high run that no low sample ends gives no pulse (40_segmenter.md rule R94). -/
theorem segmentFrom_replicate_true (prev : Bool) (c n : Nat) : segmentFrom prev c (List.replicate n true) = [] := by
  induction n generalizing prev c with
  | zero => cases prev <;> rfl
  | succ n ih => cases prev <;> simp [List.replicate_succ, segmentFrom, ih]

/-- A trailing high run adds no pulse to those of the samples before it (40_segmenter.md rule R94). -/
theorem segmentFrom_append_trailing (prev : Bool) (c n : Nat) (samples : List Bool) :
    segmentFrom prev c (samples ++ false :: List.replicate n true) = segmentFrom prev c (samples ++ [false]) := by
  induction samples generalizing prev c with
  | nil => cases prev <;> simp [segmentFrom, segmentFrom_replicate_true]
  | cons x rest ih => cases prev <;> cases x <;> simp [segmentFrom, ih]

/-- There is one pulse per falling edge (40_segmenter.md rule R94). -/
theorem length_segmentFrom (prev : Bool) (c : Nat) (samples : List Bool) :
    (segmentFrom prev c samples).length = fallingEdges prev samples := by
  induction samples generalizing prev c with
  | nil => cases prev <;> rfl
  | cons x rest ih => cases prev <;> cases x <;> simp [segmentFrom, fallingEdges, ih, Nat.add_comm]

/-- A pulse holds at least the sample of its rising edge (40_segmenter.md rule R94). -/
theorem one_le_of_mem_segmentFrom {prev : Bool} {c : Nat} {samples : List Bool} (hc : prev = true → 1 ≤ c) {w : Nat}
    (hw : w ∈ segmentFrom prev c samples) : 1 ≤ w := by
  induction samples generalizing prev c with
  | nil => cases prev <;> cases hw
  | cons x rest ih =>
    cases prev <;> cases x
    case false.false => exact ih (by simp) hw
    case false.true => exact ih (fun _ => le_rfl) hw
    case true.true => exact ih (fun _ => Nat.le_add_left ..) hw
    case true.false =>
      obtain rfl | hrest := List.mem_cons.1 hw
      · exact hc rfl
      · exact ih (by simp) hrest

/-! ### The hardware's widths -/

theorem hardwareWidths_low (tw : ThreshWidth) (c : BitVec 13) (rest : List Bool) :
    hardwareWidths tw false c (false :: rest) = hardwareWidths tw false c rest := rfl
theorem hardwareWidths_rise (tw : ThreshWidth) (c : BitVec 13) (rest : List Bool) :
    hardwareWidths tw false c (true :: rest) = hardwareWidths tw true 1 rest := rfl
theorem hardwareWidths_high (tw : ThreshWidth) (c : BitVec 13) (rest : List Bool) :
    hardwareWidths tw true c (true :: rest) = hardwareWidths tw true (satInc tw c) rest := rfl
theorem hardwareWidths_fall (tw : ThreshWidth) (c : BitVec 13) (rest : List Bool) :
    hardwareWidths tw true c (false :: rest) = c :: hardwareWidths tw false c rest := rfl

/-- The hardware's widths are the reference's cut to CMAX, as long as a high run's two counts agree up to the cut. -/
theorem toNat_hardwareWidths (tw : ThreshWidth) {prev : Bool} {c : BitVec 13} {count : Nat} (samples : List Bool)
    (hc : prev = true → c.toNat = min count (cmax tw)) :
    (hardwareWidths tw prev c samples).map BitVec.toNat = (segmentFrom prev count samples).map (min · (cmax tw)) := by
  induction samples generalizing prev c count with
  | nil => cases prev <;> rfl
  | cons x rest ih =>
    cases prev <;> cases x
    case false.false => exact ih (by simp)
    case false.true =>
      have hone : (1 : BitVec 13).toNat = min 1 (cmax tw) := (Nat.min_eq_left (Nat.one_le_of_lt (tmax_lt_cmax tw))).symm
      exact ih fun _ => hone
    case true.true =>
      have hcount := hc rfl
      have hinc : (satInc tw c).toNat = min (count + 1) (cmax tw) := by
        rw [satInc_toNat tw c (by omega)]
        omega
      exact ih fun _ => hinc
    case true.false => rw [hardwareWidths_fall, segmentFrom, List.map_cons, List.map_cons, hc rfl, ih (by simp)]

/-- Settles O15: the two segmenters in step, and the reference's own facts at its initial count. -/
theorem segmenterEmitsReferenceWidths : Obligations.SegmenterEmitsReferenceWidths := fun tw samples =>
  ⟨toNat_hardwareWidths tw samples (by simp), length_segmentFrom false _ samples,
    fun n => ⟨segmentFrom_append_trailing false _ n samples, segmentFrom_replicate_true false _ n⟩,
    fun _ => one_le_of_mem_segmentFrom (by simp), fun count => segmentFrom_false_count samples count _⟩

/-! ### The classifier -/

/-- A legal threshold is below CMAX, so cutting a width to CMAX does not move it across the threshold (40_segmenter.md rule
R95). -/
theorem lt_min_cmax_iff {tw : ThreshWidth} {t : Nat} (ht : t ≤ tmax tw) (w : Nat) : t < min w (cmax tw) ↔ t < w := by
  have hcmax := tmax_lt_cmax tw
  omega

/-- The bits of the hardware's widths are those of the reference's (40_segmenter.md rule R95). -/
theorem classify_hardwareWidths {tw : ThreshWidth} {t : BitVec 12} (ht : t.toNat ≤ tmax tw) (samples : List Bool) :
    (hardwareWidths tw false 0 samples).map (classify · t) = classifyAll (segmentOf samples) t.toNat := by
  have hwidths := toNat_hardwareWidths tw (prev := false) (c := 0) (count := Config.initialCount) samples (by simp)
  calc (hardwareWidths tw false 0 samples).map (classify · t)
      = ((hardwareWidths tw false 0 samples).map BitVec.toNat).map fun w => decide (t.toNat < w) := by
        rw [List.map_map]; rfl
    _ = (segmentOf samples).map fun w => decide (t.toNat < min w (cmax tw)) := by
        rw [hwidths, List.map_map]; rfl
    _ = classifyAll (segmentOf samples) t.toNat := by simp only [lt_min_cmax_iff ht, classifyAll]

/-- Settles O16: CMAX fits RUNCNT and is above every legal threshold. -/
theorem saturationLosesNothing : Obligations.SaturationLosesNothing := by
  refine fun tw t ht => ⟨tmax_lt_cmax tw, fun w => ?_, classify_hardwareWidths ht⟩
  have hfits : min w (cmax tw) < 2 ^ 13 := (Nat.min_le_right ..).trans_lt (cmax_lt tw)
  rw [classify, BitVec.toNat_ofNat, Nat.mod_eq_of_lt hfits]
  exact decide_eq_decide.2 (lt_min_cmax_iff ht w)

theorem classify_eq_true_iff (w : BitVec 13) (t : BitVec 12) : classify w t = true ↔ t.toNat < w.toNat :=
  decide_eq_true_iff

theorem classify_eq_false_iff (w : BitVec 13) (t : BitVec 12) : classify w t = false ↔ w.toNat ≤ t.toNat :=
  decide_eq_false_iff_not.trans Nat.not_lt

/-- Settles O18: the comparison in numbers, where each corner case is arithmetic. -/
theorem classifyAgainstThreshold : Obligations.ClassifyAgainstThreshold := by
  refine ⟨fun w t => ⟨classify_eq_true_iff w t, ?equal, ?above, ?zero⟩, fun tw w t ht => ?largest⟩
  case equal => rw [classify_eq_false_iff]; omega
  case above => rw [classify_eq_true_iff]; omega
  case zero => rintro rfl; exact classify_zero_thresh
  case largest =>
    have hcmax : t.toNat < cmax tw := ht.trans_lt (tmax_lt_cmax tw)
    have hpos : 0 < 2 ^ tw.bits := Nat.two_pow_pos _
    rw [classify_eq_false_iff, classify_eq_true_iff]
    omega

/-! ### The accumulator -/

/-- Settles O19: a push that is stored, bit by bit, and one that is discarded. -/
theorem accPushStoresOneBit : Obligations.AccPushStoresOneBit := by
  refine fun s b => ⟨fun hb => ⟨accPush_bitcnt_toNat s b hb, ?same, fun i hi => ?other, accPush_frame s b⟩,
    accPush_full s b⟩
  case same => rw [accPush_getLsbD s b _ hb, if_pos rfl]
  case other => rw [accPush_getLsbD s b i hb, if_neg hi]

/-- The accumulator holds the first 40 of `bits`, the first bit highest, and 0 in the positions not yet written
(41_classifier.md rule R111). -/
structure HoldsBits (s : State) (bits : List Bool) : Prop where
  count : s.bitcnt.toNat = min bits.length 40
  bit : ∀ k, k < 40 → s.acc.getLsbD (39 - k) = bits.getD k false

theorem holdsBits_nil {s : State} (hacc : s.acc = 0) (hbits : s.bitcnt = 0) : HoldsBits s [] :=
  ⟨by rw [hbits]; rfl, fun k _ => by rw [hacc]; simp⟩

/-- What the accumulator holds is a matter of its two elements alone. -/
theorem HoldsBits.congr {s t : State} {bits : List Bool} (h : HoldsBits s bits) (hacc : t.acc = s.acc)
    (hbits : t.bitcnt = s.bitcnt) : HoldsBits t bits :=
  ⟨by rw [hbits, h.count], by rw [hacc]; exact h.bit⟩

/-- A list's entries after one more is put at its end. -/
theorem getD_append_singleton (bits : List Bool) (b : Bool) (k : Nat) :
    (bits ++ [b]).getD k false = if k = bits.length then b else bits.getD k false := by
  obtain hk | rfl | hk := Nat.lt_trichotomy k bits.length
  · rw [List.getD_append _ _ _ _ hk, if_neg hk.ne]
  · simp
  · rw [if_neg hk.ne', List.getD_eq_default _ _ hk.le, List.getD_eq_default _ _ (by simpa using hk)]

/-- Pushing a bit appends it (41_classifier.md rule R110). -/
theorem HoldsBits.accPush {s : State} {bits : List Bool} (h : HoldsBits s bits) (b : Bool) :
    HoldsBits (s.accPush b) (bits ++ [b]) := by
  have hcount := h.count
  by_cases hlt : bits.length < 40
  case pos =>
    have hroom : s.bitcnt.toNat < 40 := by omega
    refine ⟨?_, fun k hk => ?_⟩
    · rw [accPush_bitcnt_toNat s b hroom, List.length_append, List.length_singleton]
      omega
    · have hindex : 39 - k = 39 - s.bitcnt.toNat ↔ k = bits.length := by omega
      rw [accPush_getLsbD s b _ hroom, if_congr hindex rfl (h.bit k hk), getD_append_singleton]
  case neg =>
    rw [accPush_full s b (by omega)]
    refine ⟨?_, fun k hk => ?_⟩
    · rw [List.length_append, List.length_singleton]
      omega
    · rw [List.getD_append _ _ _ _ (by omega), h.bit k hk]

/-- Pushing a sequence of bits appends it. -/
theorem HoldsBits.foldl_accPush {s : State} {bits : List Bool} (h : HoldsBits s bits) (more : List Bool) :
    HoldsBits (more.foldl State.accPush s) (bits ++ more) := by
  induction more generalizing s bits with
  | nil => rwa [List.append_nil]
  | cons b more ih => simpa using ih (h.accPush b)

/-- A full accumulator discards every further bit (41_classifier.md rule R110). -/
theorem foldl_accPush_full {s : State} (h : 40 ≤ s.bitcnt.toNat) (bits : List Bool) :
    bits.foldl State.accPush s = s := by
  induction bits with
  | nil => rfl
  | cons b bits ih => rw [List.foldl_cons, accPush_full s b h, ih]

/-- Settles O20: what the pushes hold, from an empty accumulator; after 40 bits it is full and the rest leave no trace. -/
theorem accumulatorAfterBits : Obligations.AccumulatorAfterBits := by
  intro s bits hacc hbits t
  have hempty := holdsBits_nil hacc hbits
  have ht : HoldsBits t bits := hempty.foldl_accPush bits
  refine ⟨ht.count, fun k hk => ht.bit k (by omega), fun i hi => ?clear, ?first⟩
  case clear =>
    have hbit := ht.bit (39 - i) (by omega)
    rw [Nat.sub_sub_self (by omega)] at hbit
    rw [hbit, List.getD_eq_default _ _ (by omega)]
  case first =>
    obtain hlt | hge : bits.length < 40 ∨ 40 ≤ bits.length := by omega
    · rw [List.take_of_length_le (by omega)]
    · have hfull : HoldsBits _ (bits.take 40) := hempty.foldl_accPush (bits.take 40)
      have hcount := hfull.count
      rw [List.length_take] at hcount
      calc t = (bits.take 40 ++ bits.drop 40).foldl State.accPush s := by rw [List.take_append_drop]
        _ = (bits.take 40).foldl State.accPush s := by
          rw [List.foldl_append, foldl_accPush_full (by omega)]

end Sys2Proof.Machine
end

section
/-! Proofs for 42_frame_decoder.md section 4 and 70_reset_and_hazards.md rule R194: the checksum, and a lost last pulse. -/

namespace Sys2Proof.Machine

/-- Settles O24: EXPSUM in numbers, and the rule's three frames by evaluation. -/
theorem checksumIsModular : Obligations.ChecksumIsModular :=
  ⟨expSum_toNat, by decide, by decide, by decide⟩

/-! ### Flipped bits -/

theorem frameByte_xor (a b : BitVec 40) (j : Fin 5) : frameByte (a ^^^ b) j = frameByte a j ^^^ frameByte b j :=
  BitVec.extractLsb'_xor

/-- Bit `i` of the frame is bit `i % 8` of byte `4 - i / 8`, and of no other byte (10_state.md rule R24). -/
theorem frameByte_twoPow : ∀ (i : Fin 40) (j : Fin 5),
    frameByte (BitVec.twoPow 40 i) j = if i.val / 8 + j.val = 4 then BitVec.twoPow 8 (i.val % 8) else 0 := by
  decide

/-- A flipped bit changes its byte. -/
theorem xor_twoPow_ne (x : Byte) {k : Nat} (hk : k < 8) : x ^^^ BitVec.twoPow 8 k ≠ x := by
  intro h
  have hbit := congrArg (BitVec.getLsbD · k) h
  simp [hk] at hbit

/-- One changed byte changes either the sum or the byte it is compared with, and not both (42_frame_decoder.md rule R127). -/
theorem expSum_ne_of_one_byte {acc acc' : BitVec 40} (k : Fin 5) {y : Byte} (hsum : expSum acc = frameByte acc 4)
    (hbyte : ∀ j, frameByte acc' j = if j = k then y else frameByte acc j) (hy : y ≠ frameByte acc k) :
    expSum acc' ≠ frameByte acc' 4 := by
  unfold expSum at hsum ⊢
  match k with
  | 0 | 1 | 2 | 3 => simpa [hbyte, ← hsum] using hy
  | 4 => simpa [hbyte, hsum] using hy.symm

/-- A flipped bit changes one byte of the frame and no other. -/
theorem frameByte_flip (acc : BitVec 40) {i : Nat} {k : Fin 5} (hk : i / 8 + k.val = 4) (j : Fin 5) :
    frameByte (acc ^^^ BitVec.twoPow 40 i) j =
      if j = k then frameByte acc k ^^^ BitVec.twoPow 8 (i % 8) else frameByte acc j := by
  rw [frameByte_xor, frameByte_twoPow ⟨i, by omega⟩ j]
  by_cases hj : j = k
  case pos => subst hj; rw [if_pos hk, if_pos rfl]
  case neg =>
    have hother : ¬i / 8 + j.val = 4 := fun h => hj (Fin.ext (by omega))
    rw [if_neg hother, if_neg hj]
    exact BitVec.xor_zero

/-- Setting a clear bit 0 adds 1, clearing a set one subtracts 1. -/
theorem xor_one_of_clear : ∀ x : Byte, x.getLsbD 0 = false → x ^^^ BitVec.twoPow 8 0 = x + 1 := by decide
theorem xor_one_of_set : ∀ x : Byte, x.getLsbD 0 = true → x ^^^ BitVec.twoPow 8 0 = x - 1 := by decide

/-- Settles O25: one flip changes one byte; the two flips add 1 to a summand and subtract 1 from another. -/
theorem singleFlipIsDetected : Obligations.SingleFlipIsDetected := by
  intro s hc hok
  obtain ⟨hfull, hsum⟩ := (judge_ok_iff _ _).1 hok
  refine ⟨fun i hi => ?one, fun h0 h1 => ?two⟩
  case one =>
    obtain ⟨k, hk⟩ : ∃ k : Fin 5, i / 8 + k.val = 4 := ⟨⟨4 - i / 8, by omega⟩, by dsimp only; omega⟩
    have hfails := expSum_ne_of_one_byte k hsum (frameByte_flip s.acc hk) (xor_twoPow_ne _ (Nat.mod_lt i (by decide)))
    exact ⟨_, exec_end_capture _ hc, (judge_checksum_iff _ _).2 ⟨hfull, hfails⟩⟩
  case two =>
    have hset := xor_one_of_clear (frameByte s.acc 0) ((getLsbD_frameByte s.acc 0 0 (by decide)).trans h0)
    have hclear := xor_one_of_set (frameByte s.acc 1) ((getLsbD_frameByte s.acc 1 0 (by decide)).trans h1)
    have hbyte : ∀ j, frameByte (s.acc ^^^ BitVec.twoPow 40 32 ^^^ BitVec.twoPow 40 24) j =
        if j = 1 then frameByte s.acc 1 - 1 else if j = 0 then frameByte s.acc 0 + 1 else frameByte s.acc j := fun j => by
      have hfirst := frameByte_flip s.acc (i := 32) (k := 0) rfl
      rw [frameByte_flip _ (i := 24) (k := 1) rfl, hfirst, hfirst]
      simp [hset, hclear]
    have hcancel : expSum (s.acc ^^^ BitVec.twoPow 40 32 ^^^ BitVec.twoPow 40 24) = expSum s.acc := by
      simp [expSum, hbyte]
    refine ⟨_, exec_end_capture _ hc, (judge_ok_iff _ _).2 ⟨hfull, ?_⟩⟩
    rw [hcancel, hsum, hbyte]
    rfl

/-! ### The last pulse -/

/-- With 40 bits the outcome is one of the two that a complete frame has (42_frame_decoder.md rule R123). -/
theorem judge_of_full {bitcnt : BitVec 6} (acc : BitVec 40) (h : 40 ≤ bitcnt.toNat) :
    judge bitcnt acc = .ok ∨ judge bitcnt acc = .checksum := by
  rw [judge_ok_iff, judge_checksum_iff]
  by_cases hsum : expSum acc = frameByte acc 4 <;> simp [h, hsum]

/-- Settles O27: without a falling edge END judges 39 bits, with one the 40th is stored. -/
theorem unterminatedLastPulseIsLost : Obligations.UnterminatedLastPulseIsLost := by
  intro s hc hp hb
  refine ⟨⟨_, exec_end_capture s hc, ?lost, hb⟩, ?kept⟩
  case lost => exact (judge_incomplete_iff _ _).2 (by rw [hb]; decide)
  case kept =>
    have hcount := capturedSample_fall_bitcnt hp (by rw [hb]; decide)
    rw [hb] at hcount
    obtain ⟨-, -, -, -, -, hphase, -⟩ := capturedSample_frame s false
    exact ⟨_, _, exec_sample_capture false s hc, exec_end_capture _ (hphase.trans hc), BitVec.eq_of_toNat_eq hcount,
      judge_of_full _ hcount.ge⟩

end Sys2Proof.Machine
end

section
/-! Proofs about sequences of cycles: what is frozen in DONE (10_state.md rule R28), what a capture ignores (40_segmenter.md
rule R97, 42_frame_decoder.md rule R129), and a WRTH inside a capture (70_reset_and_hazards.md rule R192). -/

namespace Sys2Proof.Machine

/-! ### Inductions over a sequence of cycles -/

theorem runCycles_singleton (p : PortIn) (s : State) : runCycles [p] s = clock p s := by
  unfold runCycles
  cases clock p s <;> rfl

/-- A relation between two runs that every allowed cycle goes on with and keeps holds after any sequence of them. -/
theorem runCycles_keeps_rel {R : State → State → Prop} {Q : PortIn → Prop}
    (hstep : ∀ s u p, R s u → Q p → ∃ s' u', clock p s = .next s' ∧ clock p u = .next u' ∧ R s' u')
    {ps : List PortIn} (hps : ∀ p ∈ ps, Q p) {s u : State} (h : R s u) :
    ∃ s' u', runCycles ps s = .next s' ∧ runCycles ps u = .next u' ∧ R s' u' := by
  induction ps generalizing s u with
  | nil => exact ⟨s, u, rfl, rfl, h⟩
  | cons p ps ih =>
    obtain ⟨hp, hrest⟩ := List.forall_mem_cons.1 hps
    obtain ⟨s₁, u₁, hs, hu, h₁⟩ := hstep s u p h hp
    rw [runCycles_cons ps hs, runCycles_cons ps hu]
    exact ih hrest h₁

/-- A predicate that every allowed cycle goes on with and keeps holds after any sequence of them. -/
theorem runCycles_keeps {I : State → Prop} {Q : PortIn → Prop}
    (hstep : ∀ s p, I s → Q p → ∃ t, clock p s = .next t ∧ I t) {ps : List PortIn} (hps : ∀ p ∈ ps, Q p) {s : State}
    (h : I s) : ∃ t, runCycles ps s = .next t ∧ I t := by
  have hrel : ∀ s u p, I s ∧ I u → Q p → ∃ s' u', clock p s = .next s' ∧ clock p u = .next u' ∧ I s' ∧ I u' := by
    rintro s u p ⟨hs, hu⟩ hp
    obtain ⟨s', hs'⟩ := hstep s p hs hp
    obtain ⟨u', hu'⟩ := hstep u p hu hp
    exact ⟨s', u', hs'.1, hu'.1, hs'.2, hu'.2⟩
  obtain ⟨t, -, ht, -, hI, -⟩ := runCycles_keeps_rel (R := fun s u => I s ∧ I u) hrel hps ⟨h, h⟩
  exact ⟨t, ht, hI⟩

/-! ### The kinds of cycle -/

theorem beginsCapture_iff (tw : ThreshWidth) (p : PortIn) :
    beginsCapture tw p = true ↔
      p.rst = true ∨ (p.rst = false ∧ p.cmdValid = true ∧ decode tw p.cmd = .ok .start) := by
  cases hr : p.rst
  · cases hv : p.cmdValid
    · simp [beginsCapture_idle tw hr hv]
    · cases hd : decode tw p.cmd with
      | ok i => simp [beginsCapture_ok hr hv hd]
      | error e => simp [beginsCapture_error hr hd]
  · simp [beginsCapture_reset tw hr]

theorem beginsCapture_eq_false_iff (tw : ThreshWidth) (p : PortIn) :
    beginsCapture tw p = false ↔
      ¬(p.rst = true ∨ (p.rst = false ∧ p.cmdValid = true ∧ decode tw p.cmd = .ok .start)) := by
  rw [← beginsCapture_iff, Bool.not_eq_true]

/-- Reset and START are not inside a capture (42_frame_decoder.md rule R128, point 2). -/
theorem beginsCapture_of_insideCapture {tw : ThreshWidth} {p : PortIn} (h : insideCapture tw p = true) :
    beginsCapture tw p = false := by
  rw [beginsCapture_eq_false_iff]
  rintro (hr | ⟨hr, hv, hd⟩)
  · simp [insideCapture, hr] at h
  · simp [insideCapture, hr, hv, hd] at h

/-! ### Frames -/

/-- Without a sample that is captured, and without START and reset, the segmenter and the accumulator stay (10_state.md rule
R44). -/
theorem clock_keeps_segmenter {p : PortIn} {s t : State} (h : clock p s = .next t)
    (hb : beginsCapture s.tw p = false) (hn : sampleOf s.tw p = none ∨ s.phase = .done) :
    t.prev = s.prev ∧ t.runcnt = s.runcnt ∧ t.acc = s.acc ∧ t.bitcnt = s.bitcnt := by
  obtain ⟨hframe, -⟩ := onlyTheListedWriters s t p h
  refine hframe ?noSample ((beginsCapture_eq_false_iff ..).1 hb)
  case noSample =>
    rintro ⟨⟨x, hr, hv, hd⟩, hp⟩
    simp [sampleOf_ok hr hv hd, sampleArg, hp] at hn

/-- Without START and reset TACT stays (10_state.md rule R44). -/
theorem clock_keeps_tact {p : PortIn} {s t : State} (h : clock p s = .next t) (hb : beginsCapture s.tw p = false) :
    t.tact = s.tact := by
  obtain ⟨-, -, hframe, -⟩ := onlyTheListedWriters s t p h
  exact hframe ((beginsCapture_eq_false_iff ..).1 hb)

/-- In DONE the phase and the result stay without START and reset (10_state.md rule R44). -/
theorem clock_keeps_done {p : PortIn} {s t : State} (h : clock p s = .next t) (hb : beginsCapture s.tw p = false)
    (hp : s.phase = .done) : t.phase = .done ∧ t.result = s.result := by
  obtain ⟨-, -, -, hframe, -⟩ := onlyTheListedWriters s t p h
  obtain ⟨hphase, hresult⟩ := hframe (by simp [hp]) ((beginsCapture_eq_false_iff ..).1 hb)
  exact ⟨hphase.trans hp, hresult⟩

/-- Settles O17: a cycle inside a capture begins none, and without a sample the segmenter stays. -/
theorem noSampleKeepsTheRun : Obligations.NoSampleKeepsTheRun := by
  intro s p hs hi hn
  obtain ⟨t, ht, -⟩ := clock_total p s (.inr hs)
  exact ⟨t, ht, clock_keeps_segmenter ht (beginsCapture_of_insideCapture hi) (.inl hn)⟩

/-! ### DONE -/

/-- `t` is in DONE with the outcome, the frame and the segmenter of `s` (60_exceptions.md rule R167). -/
structure FrozenAs (s t : State) : Prop where
  tw_eq : t.tw = s.tw
  resetSeen : t.resetSeen = true
  phase : t.phase = .done
  result_eq : t.result = s.result
  acc_eq : t.acc = s.acc
  bitcnt_eq : t.bitcnt = s.bitcnt
  prev_eq : t.prev = s.prev
  runcnt_eq : t.runcnt = s.runcnt
  tact_eq : t.tact = s.tact

theorem FrozenAs.trans {s t u : State} (h : FrozenAs s t) (h' : FrozenAs t u) : FrozenAs s u :=
  ⟨h'.tw_eq.trans h.tw_eq, h'.resetSeen, h'.phase, h'.result_eq.trans h.result_eq, h'.acc_eq.trans h.acc_eq,
    h'.bitcnt_eq.trans h.bitcnt_eq, h'.prev_eq.trans h.prev_eq, h'.runcnt_eq.trans h.runcnt_eq,
    h'.tact_eq.trans h.tact_eq⟩

theorem clock_frozen {p : PortIn} {s : State} (hs : s.resetSeen = true) (hp : s.phase = .done)
    (hb : beginsCapture s.tw p = false) : ∃ t, clock p s = .next t ∧ FrozenAs s t := by
  obtain ⟨t, ht, htw, hseen, -⟩ := clock_total p s (.inr hs)
  obtain ⟨hprev, hruncnt, hacc, hbitcnt⟩ := clock_keeps_segmenter ht hb (.inr hp)
  obtain ⟨hphase, hresult⟩ := clock_keeps_done ht hb hp
  exact ⟨t, ht, htw, hseen, hphase, hresult, hacc, hbitcnt, hprev, hruncnt, clock_keeps_tact ht hb⟩

/-- Settles O42, by induction on the cycles: each one but START and reset leaves the frozen state frozen. -/
theorem doneIsLeftByStartOrResetOnly : Obligations.DoneIsLeftByStartOrResetOnly := by
  intro s ps hs hp hps
  have hstart : FrozenAs s s := ⟨rfl, hs, hp, rfl, rfl, rfl, rfl, rfl, rfl⟩
  have hstep : ∀ t p, FrozenAs s t → beginsCapture s.tw p = false → ∃ u, clock p t = .next u ∧ FrozenAs s u := by
    intro t p ht hb
    obtain ⟨u, hu, hfrozen⟩ := clock_frozen ht.resetSeen ht.phase (by rwa [ht.tw_eq])
    exact ⟨u, hu, ht.trans hfrozen⟩
  obtain ⟨t, ht, hfrozen⟩ := runCycles_keeps hstep hps hstart
  exact ⟨t, ht, hfrozen.phase, hfrozen.result_eq, hfrozen.acc_eq, hfrozen.bitcnt_eq, hfrozen.prev_eq, hfrozen.runcnt_eq,
    hfrozen.tact_eq⟩

/-! ### A full capture -/

/-- A capture under way in the build `tw` whose accumulator is full and holds `acc`. -/
structure FullCapture (tw : ThreshWidth) (acc : BitVec 40) (s : State) : Prop where
  tw_eq : s.tw = tw
  resetSeen : s.resetSeen = true
  phase : s.phase = .capture
  bitcnt_eq : s.bitcnt = 40
  acc_eq : s.acc = acc

/-- A cycle inside a full capture, sample or not, leaves it full with the same 40 bits (41_classifier.md rule R110). -/
theorem FullCapture.clock {tw : ThreshWidth} {acc : BitVec 40} {s : State} {p : PortIn} (h : FullCapture tw acc s)
    (hi : insideCapture tw p = true) : ∃ t, clock p s = .next t ∧ FullCapture tw acc t := by
  obtain ⟨t, ht, hphase, -, htw, hseen, hcase⟩ :=
    insideCapture_clock h.resetSeen h.phase (by rwa [h.tw_eq])
  have hkeep : t.bitcnt = s.bitcnt ∧ t.acc = s.acc := by
    obtain ⟨-, -, -, hacc, hbitcnt⟩ | ⟨x, -, rfl⟩ := hcase
    · exact ⟨hbitcnt, hacc⟩
    · exact capturedSample_keeps_frame (by simp [h.bitcnt_eq])
  obtain ⟨hbitcnt, hacc⟩ := hkeep
  exact ⟨t, ht, htw.trans h.tw_eq, hseen, hphase, hbitcnt.trans h.bitcnt_eq, hacc.trans h.acc_eq⟩

/-- The word of END in a capture under way records the judgement (42_frame_decoder.md rule R123). -/
theorem clock_end_word {s : State} (hs : s.resetSeen = true) (hp : s.phase = .capture) :
    clock (commandCycle 0x3000) s = .next ((s.recordResult (judge s.bitcnt s.acc)).drive 0) := by
  rw [clock_command 0x3000 s _ hs (decode_end_word s.tw), exec_end_capture s hp]

/-- The payload registers show RESULT, ACC and BITCNT alone (43_control.md rule R147). -/
theorem regRead_payload_congr {s t : State} (hresult : t.result = s.result) (hacc : t.acc = s.acc)
    (hbitcnt : t.bitcnt = s.bitcnt) :
    ∀ a ∈ [0x1#4, 0x5#4, 0x6#4, 0x7#4, 0x8#4, 0x9#4], regRead t a = regRead s a := by
  simp [hresult, hacc, hbitcnt]

/-- Settles O26, by induction on the cycles: they keep the full accumulator, which is all that END and the payload registers
read. -/
theorem trailingPulsesIgnored : Obligations.TrailingPulsesIgnored := by
  intro s ps hs hp hb hps
  have hstart : FullCapture s.tw s.acc s := ⟨rfl, hs, hp, hb, rfl⟩
  obtain ⟨r, hr, hfull⟩ := runCycles_keeps (fun _ _ h hi => h.clock hi) hps hstart
  have hbitcnt : r.bitcnt = s.bitcnt := hfull.bitcnt_eq.trans hb.symm
  have hacc : r.acc = s.acc := hfull.acc_eq
  have hjudge : judge r.bitcnt r.acc = judge s.bitcnt s.acc := by rw [hbitcnt, hacc]
  have hrun : runCycles (ps ++ [commandCycle 0x3000]) s = .next ((r.recordResult (judge r.bitcnt r.acc)).drive 0) := by
    rw [runCycles_append hr, runCycles_singleton, clock_end_word hfull.resetSeen hfull.phase]
  exact ⟨_, _, hrun, clock_end_word hs hp, hjudge, hacc, hbitcnt, regRead_payload_congr hjudge hacc hbitcnt⟩

/-! ### A WRTH inside a capture -/

/-- `t` is `s` but for THRESH and the read-data output. -/
def AgreesButThresh (s t : State) : Prop := ∃ v w, t = (s.setThresh v).drive w

/-- A captured sample does not read THRESH or the output. -/
theorem capturedSample_setThresh_drive (s : State) (v : BitVec 12) (w : Word) (x : Bool) :
    ((s.setThresh v).drive w).capturedSample x = ((s.capturedSample x).setThresh v).drive w := by
  cases hp : s.prev <;> cases x <;> simp [hp] <;> rfl

/-- No command but START reads THRESH into another element (10_state.md rule R44). -/
theorem AgreesButThresh.exec {i : Instr} {s t s' : State} (h : AgreesButThresh s t) (hi : i ≠ .start)
    (he : exec i s = .next s') : ∃ t', Machine.exec i t = .next t' ∧ AgreesButThresh s' t' := by
  obtain ⟨v, w, rfl⟩ := h
  rcases exec_cases he with ⟨rfl, rfl⟩ | ⟨x, rfl, hp, rfl⟩ | ⟨x, rfl, hp, rfl⟩ | ⟨rfl, -⟩ | ⟨rfl, hp, rfl⟩ |
    ⟨rfl, hp, rfl⟩ | ⟨u, rfl, rfl⟩ | ⟨a, rfl, rfl⟩
  · exact ⟨_, exec_nop _, v, 0, rfl⟩
  · refine ⟨_, exec_sample_capture x _ hp, v, 0, ?_⟩
    rw [capturedSample_setThresh_drive]
    rfl
  · exact ⟨_, exec_sample_done x _ hp, v, 0, rfl⟩
  · exact absurd rfl hi
  · exact ⟨_, exec_end_capture _ hp, v, 0, rfl⟩
  · exact ⟨_, exec_end_done _ hp, v, 0, rfl⟩
  · exact ⟨_, exec_wrth u _, threshOperand s.tw u, 0, rfl⟩
  · exact ⟨_, exec_read a _, v, _, rfl⟩

/-- No cycle but START and reset reads THRESH into another element. -/
theorem AgreesButThresh.clock {p : PortIn} {s t s' : State} (h : AgreesButThresh s t)
    (hb : beginsCapture s.tw p = false) (hc : clock p s = .next s') :
    ∃ t', Machine.clock p t = .next t' ∧ AgreesButThresh s' t' := by
  have htw : t.tw = s.tw ∧ t.resetSeen = s.resetSeen := by obtain ⟨v, w, rfl⟩ := h; exact ⟨rfl, rfl⟩
  obtain ⟨htw, hseen⟩ := htw
  rcases clock_cases hc with ⟨hr, rfl⟩ | ⟨hr, hs, hv, rfl⟩ | ⟨hr, hs, hv, i, hd, he⟩ | ⟨hr, hs, hv, ⟨e, hd⟩, rfl⟩
  · simp [beginsCapture_reset s.tw hr] at hb
  · obtain ⟨v, w, rfl⟩ := h
    exact ⟨_, clock_idle p _ hr hs hv, v, 0, rfl⟩
  · rw [clock_ok p t i hr (hseen.trans hs) hv (htw ▸ hd)]
    exact h.exec (by simpa [beginsCapture_ok hr hv hd] using hb) he
  · obtain ⟨v, w, rfl⟩ := h
    exact ⟨_, clock_error p _ e hr hs hv hd, v, 0, rfl⟩

/-- The runs `u` and `t` go on in the build and at the active threshold of `s`, and differ at most in THRESH and the
read-data output. -/
structure SameCapture (s u t : State) : Prop where
  tw_eq : u.tw = s.tw
  resetSeen : u.resetSeen = true
  tact_eq : u.tact = s.tact
  agrees : AgreesButThresh u t

theorem SameCapture.clock {s u t : State} {p : PortIn} (h : SameCapture s u t) (hb : beginsCapture s.tw p = false) :
    ∃ u' t', Machine.clock p u = .next u' ∧ Machine.clock p t = .next t' ∧ SameCapture s u' t' := by
  rw [← h.tw_eq] at hb
  obtain ⟨u', hu, htw, hseen, -⟩ := clock_total p u (.inr h.resetSeen)
  obtain ⟨t', ht, hagrees⟩ := h.agrees.clock hb hu
  exact ⟨u', t', hu, ht, htw.trans h.tw_eq, hseen, (clock_keeps_tact hu hb).trans h.tact_eq, hagrees⟩

/-- The encoded WRTH of a threshold of the build moves it into THRESH (43_control.md rule R143). -/
theorem clock_wrth {s : State} {v : BitVec 12} (hs : s.resetSeen = true) (hv : v.toNat ≤ tmax s.tw) :
    clock (commandCycle (encode (.wrth v))) s = .next ((s.setThresh v).drive 0) := by
  have hlt : v.toNat < 2 ^ s.tw.bits := Nat.lt_of_le_pred (Nat.two_pow_pos _) hv
  have hd : decode s.tw (encode (.wrth v)) = .ok (.wrth v) := decodeEncodeAgree s.tw _ (decide_eq_true hlt)
  rw [clock_command _ s _ hs hd, exec_wrth, threshOperand_of_lt s.tw v hlt]

/-- The word of START begins a capture (43_control.md rule R142). -/
theorem clock_start_word {s : State} (hs : s.resetSeen = true) :
    clock (commandCycle 0x2000) s = .next (s.beginCapture.drive 0) := by
  rw [clock_command 0x2000 s _ hs (decode_start_word s.tw), exec_start]

/-- Settles O43: the two runs agree but for THRESH after the WRTH and after every further cycle. -/
theorem thresholdWaitsForStart : Obligations.ThresholdWaitsForStart := by
  intro s v ps hs hv hps
  have hwrth := clock_wrth hs hv
  refine ⟨?capture, ?start⟩
  case capture =>
    have hbegin : SameCapture s s ((s.setThresh v).drive 0) := ⟨rfl, hs, rfl, v, 0, rfl⟩
    obtain ⟨u, t, hu, ht, hsame⟩ := runCycles_keeps_rel (fun _ _ _ h hb => h.clock hb) hps hbegin
    obtain ⟨x, w, rfl⟩ := hsame.agrees
    exact ⟨_, u, (runCycles_cons ps hwrth).trans ht, hu, hsame.tact_eq, hsame.tact_eq, rfl, rfl, rfl, rfl, rfl, rfl, rfl,
      rfl⟩
  case start =>
    have hrun : runCycles [commandCycle (encode (.wrth v)), commandCycle (encode .start)] s =
        .next (((s.setThresh v).drive 0).beginCapture.drive 0) := by
      rw [runCycles_cons _ hwrth, runCycles_singleton]
      exact clock_start_word hs
    exact ⟨_, hrun, rfl⟩

end Sys2Proof.Machine
end

section
/-! Proofs for 42_frame_decoder.md rules R128 and R130: a whole capture answers the source's `Decode` of its samples, and the
samples of SENDFRAME decode to its bytes. -/

namespace Sys2Proof.Machine

/-! ### The bits a capture accumulates -/

theorem HoldsBits.setSegmenter {s : State} {bits : List Bool} (h : HoldsBits s bits) (x : Bool) (c : BitVec 13) :
    HoldsBits (s.setSegmenter x c) bits := h.congr rfl rfl

theorem HoldsBits.drive {s : State} {bits : List Bool} (h : HoldsBits s bits) (v : Word) : HoldsBits (s.drive v) bits :=
  h.congr rfl rfl

/-- A captured sample pushes the bit of the pulse it ends, if it ends one (40_segmenter.md rule R92). -/
theorem HoldsBits.capturedSample {s : State} {bits : List Bool} (h : HoldsBits s bits) (x : Bool) :
    HoldsBits (s.capturedSample x)
      (bits ++ (segStep s.tw s.prev s.runcnt x).2.2.toList.map (classify · s.tact)) := by
  cases hp : s.prev <;> cases x
  case true.false =>
    rw [capturedSample_fall s hp]
    exact (h.setSegmenter _ _).accPush _
  all_goals simpa [hp] using h.setSegmenter _ _

/-- The segmenter's state after a captured sample is SegStep's (40_segmenter.md rule R92). -/
theorem capturedSample_runcnt (s : State) (x : Bool) :
    (s.capturedSample x).runcnt = (segStep s.tw s.prev s.runcnt x).2.1 := by
  cases hp : s.prev <;> cases x <;> simp [hp]

/-- The classified widths of one more sample. -/
theorem hardwareWidths_cons (tw : ThreshWidth) (prev x : Bool) (c : BitVec 13) (rest : List Bool) :
    hardwareWidths tw prev c (x :: rest) =
      (segStep tw prev c x).2.2.toList ++ hardwareWidths tw x (segStep tw prev c x).2.1 rest := by
  rw [hardwareWidths, segStep_prev]

/-- The cycles of a capture go on and push the bits of their samples' pulses, whatever stands between the samples
(42_frame_decoder.md rule R128, point 2). -/
theorem runCycles_capture {s : State} {bits : List Bool} {ps : List PortIn} (hs : s.resetSeen = true)
    (hc : s.phase = .capture) (hps : ∀ p ∈ ps, insideCapture s.tw p = true) (h : HoldsBits s bits) :
    ∃ u, runCycles ps s = .next u ∧ u.phase = .capture ∧ u.resetSeen = true ∧
      HoldsBits u (bits ++ (hardwareWidths s.tw s.prev s.runcnt (samplesOf s.tw ps)).map (classify · s.tact)) := by
  induction ps generalizing s bits with
  | nil => exact ⟨s, rfl, hc, hs, by simpa [samplesOf, hardwareWidths] using h⟩
  | cons p ps ih =>
    obtain ⟨hp, hrest⟩ := List.forall_mem_cons.1 hps
    obtain ⟨t, ht, hphase, htact, htw, hseen, hcase⟩ := insideCapture_clock hs hc hp
    rw [runCycles_cons ps ht]
    rw [← htw] at hrest
    obtain ⟨hn, hprev, hruncnt, hacc, hbitcnt⟩ | ⟨x, hx, rfl⟩ := hcase
    · have hsamples : samplesOf s.tw (p :: ps) = samplesOf s.tw ps := by simp [samplesOf, hn]
      have hrun := ih hseen hphase hrest (h.congr hacc hbitcnt)
      rwa [htw, hprev, hruncnt, htact, ← hsamples] at hrun
    · have hsamples : samplesOf s.tw (p :: ps) = x :: samplesOf s.tw ps := by simp [samplesOf, hx]
      have hrun := ih hseen hphase hrest ((h.capturedSample x).drive 0)
      have hprev : (s.capturedSample x).prev = x := (capturedSample_frame s x).1
      rw [htw, htact, State.drive_prev, State.drive_runcnt, hprev, capturedSample_runcnt, List.append_assoc,
        ← List.map_append, ← hardwareWidths_cons, ← hsamples] at hrun
      exact hrun

/-- A capture begins with START or reset: an empty accumulator, an idle segmenter and the threshold in TACT
(42_frame_decoder.md rule R128, point 1). -/
theorem clock_begins_capture {s : State} {p : PortIn} {t : Nat}
    (h : p = commandCycle 0x2000 ∧ s.resetSeen = true ∧ s.thresh.toNat = t ∨ p.rst = true ∧ t = 3) :
    ∃ u, clock p s = .next u ∧ u.tw = s.tw ∧ u.resetSeen = true ∧ u.phase = .capture ∧ u.prev = false ∧ u.runcnt = 0 ∧
      u.tact.toNat = t ∧ HoldsBits u [] := by
  obtain ⟨rfl, hs, ht⟩ | ⟨hr, rfl⟩ := h
  · exact ⟨_, clock_start_word hs, rfl, hs, rfl, rfl, rfl, ht, holdsBits_nil rfl rfl⟩
  · exact ⟨_, clock_reset p s hr, rfl, rfl, rfl, rfl, rfl, rfl, holdsBits_nil rfl rfl⟩

/-- A whole capture goes on, holds the bits `ClassifyAll(Segment(samples), T)` and records END's judgement of them. -/
theorem runCycles_whole_capture {s : State} {p : PortIn} {ps : List PortIn} {t : Nat} (ht : t ≤ tmax s.tw)
    (hbegin : p = commandCycle 0x2000 ∧ s.resetSeen = true ∧ s.thresh.toNat = t ∨ p.rst = true ∧ t = 3)
    (hps : ∀ q ∈ ps, insideCapture s.tw q = true) :
    ∃ u, runCycles (p :: ps ++ [commandCycle 0x3000]) s = .next u ∧ u.result = judge u.bitcnt u.acc ∧
      HoldsBits u (classifyAll (segmentOf (samplesOf s.tw ps)) t) := by
  obtain ⟨v, hv, htw, hs, hc, hprev, hruncnt, rfl, hempty⟩ := clock_begins_capture hbegin
  obtain ⟨u, hu, hphase, hseen, hbits⟩ := runCycles_capture hs hc (by rwa [htw]) hempty
  rw [htw, hprev, hruncnt, List.nil_append, classify_hardwareWidths ht] at hbits
  have hrun : runCycles (p :: ps) s = .next u := by rw [runCycles_cons ps hv, hu]
  refine ⟨(u.recordResult (judge u.bitcnt u.acc)).drive 0, ?_, rfl, hbits.congr rfl rfl⟩
  rw [runCycles_append hrun, runCycles_singleton, clock_end_word hseen hphase]

/-! ### The frame of the bits -/

/-- Byte j of the frame is bits 8j to 8j + 7 of the capture, the first one highest (30_encoding.md rule R78). -/
theorem HoldsBits.frameByte_bit {s : State} {bits : List Bool} (h : HoldsBits s bits) (j : Fin 5) {i : Nat} (hi : i < 8) :
    (frameByte s.acc j).getLsbD (7 - i) = bits.getD (8 * j.val + i) false := by
  have hindex : 32 - 8 * j.val + (7 - i) = 39 - (8 * j.val + i) := by omega
  rw [getLsbD_frameByte s.acc j _ (by omega), hindex, h.bit _ (by omega)]

/-- A byte as the sum over its bits, the highest first. -/
theorem sum_msb_bits (x : Byte) :
    ((List.range 8).map fun i => (x.getLsbD (7 - i)).toNat * 2 ^ (7 - i)).sum = x.toNat := by
  rw [byte_of_bits x]
  simp [List.range_succ]
  omega

/-- The bytes of ACC are those that the source's FrameCheck makes of the bits (42_frame_decoder.md rule R120, step 2). -/
theorem HoldsBits.byteOfBits_eq {s : State} {bits : List Bool} (h : HoldsBits s bits) (j : Fin 5) :
    byteOfBits bits j.val = (frameByte s.acc j).toNat := by
  rw [← sum_msb_bits, byteOfBits]
  refine congrArg List.sum (List.map_congr_left fun i hi => ?_)
  rw [h.frameByte_bit j (List.mem_range.1 hi)]

/-- The source's three outcomes in the frame's own bytes (42_frame_decoder.md rule R120). -/
theorem HoldsBits.frameCheck_eq {s : State} {bits : List Bool} (h : HoldsBits s bits) :
    frameCheck bits =
      if s.bitcnt.toNat < 40 then .incompleteFrame s.bitcnt.toNat
      else if expSum s.acc ≠ frameByte s.acc 4 then
        .checksumMismatch (expSum s.acc).toNat (frameByte s.acc 4).toNat
      else .reading (10 * (frameByte s.acc 0).toNat + (frameByte s.acc 1).toNat)
        (10 * (frameByte s.acc 2).toNat + (frameByte s.acc 3).toNat) := by
  have hcount := h.count
  have h0 : byteOfBits bits 0 = (frameByte s.acc 0).toNat := h.byteOfBits_eq 0
  have h1 : byteOfBits bits 1 = (frameByte s.acc 1).toNat := h.byteOfBits_eq 1
  have h2 : byteOfBits bits 2 = (frameByte s.acc 2).toNat := h.byteOfBits_eq 2
  have h3 : byteOfBits bits 3 = (frameByte s.acc 3).toNat := h.byteOfBits_eq 3
  have h4 : byteOfBits bits 4 = (frameByte s.acc 4).toNat := h.byteOfBits_eq 4
  have hsum : ((frameByte s.acc 0).toNat + (frameByte s.acc 1).toNat + (frameByte s.acc 2).toNat +
      (frameByte s.acc 3).toNat) % 256 = (expSum s.acc).toNat := by
    simp [expSum]
  unfold frameCheck
  by_cases hshort : s.bitcnt.toNat < 40
  case pos =>
    have hlength : bits.length = s.bitcnt.toNat := by omega
    simp only [hlength, if_pos hshort]
  case neg =>
    have hlong : ¬bits.length < 40 := by omega
    simp only [if_neg hshort, if_neg hlong, h0, h1, h2, h3, h4, hsum, ne_eq, BitVec.toNat_inj]

/-- The registers after an incomplete frame answer `IncompleteFrame` (42_frame_decoder.md rule R125). -/
theorem answers_incompleteFrame {s : State} (h : s.result = .incomplete) :
    answers s (.incompleteFrame s.bitcnt.toNat) := by
  simp [answers, h, -regRead_bitcnt, regRead_bitcnt_toNat]

/-- The registers after a failed checksum answer `ChecksumMismatch` (42_frame_decoder.md rule R125). -/
theorem answers_checksumMismatch {s : State} (h : s.result = .checksum) :
    answers s (.checksumMismatch (expSum s.acc).toNat (frameByte s.acc 4).toNat) := by
  have hcheck := toNat_bytes (expSum s.acc) (frameByte s.acc 4)
  have hb4 := (frameByte s.acc 4).isLt
  have hhigh : (regRead s 0x7#4).toNat / 256 = (expSum s.acc).toNat := by rw [regRead_check]; omega
  have hlow : (regRead s 0x7#4).toNat % 256 = (frameByte s.acc 4).toNat := by rw [regRead_check]; omega
  simp [answers, h, -regRead_check, hhigh, hlow]

/-- The registers after a valid frame answer `Reading` (42_frame_decoder.md rule R125). -/
theorem answers_reading {s : State} (h : s.result = .ok) :
    answers s (.reading (10 * (frameByte s.acc 0).toNat + (frameByte s.acc 1).toNat)
      (10 * (frameByte s.acc 2).toNat + (frameByte s.acc 3).toNat)) := by
  simp [answers, h, -regRead_hum10, -regRead_temp10, regRead_hum10_of_ok h, regRead_temp10_of_ok h]

/-- What END recorded is what the registers answer for FrameCheck of the bits (42_frame_decoder.md rules R120 and R125). -/
theorem HoldsBits.answers {s : State} {bits : List Bool} (h : HoldsBits s bits)
    (hresult : s.result = judge s.bitcnt s.acc) : answers s (frameCheck bits) := by
  rw [h.frameCheck_eq]
  unfold judge at hresult
  split
  case isTrue hshort => exact answers_incompleteFrame (by rw [hresult, if_pos hshort])
  case isFalse hfull =>
    rw [if_neg hfull] at hresult
    split
    case isTrue hsum => exact answers_checksumMismatch (by rw [hresult, if_pos hsum])
    case isFalse hsum => exact answers_reading (by rw [hresult, if_neg hsum])

/-- Settles O46: the capture holds the bits of the reference's pulses, and END answers FrameCheck of them. -/
theorem captureAnswersDecode : Obligations.CaptureAnswersDecode := by
  intro s p ps t ht hbegin hps
  obtain ⟨u, hu, hresult, hbits⟩ := runCycles_whole_capture ht hbegin hps
  exact ⟨u, hu, hbits.answers hresult⟩

/-! ### SENDFRAME -/

/-- The samples of one synthesised pulse: the high run that stands for the bit, and one low sample (30_encoding.md rule
R81). -/
def pulseSamples (t : Nat) (b : Bool) : List Bool := List.replicate (if b then t + 1 else 1) true ++ [false]

theorem sendBitCmds_eq (t : Nat) (b : Bool) : sendBitCmds t b = (pulseSamples t b).map .sample := by
  cases b <;> simp [sendBitCmds, pulseSamples, highCmds, lowCmds]

theorem sendByteCmds_eq (t : Nat) (x : Byte) :
    sendByteCmds t x = ((msbFirst x).flatMap (pulseSamples t)).map .sample := by
  rw [List.map_flatMap, List.flatMap_def, sendByteCmds, funext (sendBitCmds_eq t)]

/-- SENDFRAME is a sequence of samples: the pulses of the bytes' bits, the highest bit first (30_encoding.md rule R81). -/
theorem sendFrameCmds_eq (t : Nat) (bytes : List Byte) :
    sendFrameCmds t bytes = ((bytes.flatMap msbFirst).flatMap (pulseSamples t)).map .sample := by
  rw [List.flatMap_assoc, List.map_flatMap, List.flatMap_def, sendFrameCmds, funext (sendByteCmds_eq t)]

/-- A high run that goes on for `n` samples and then ends is one pulse. -/
theorem segmentFrom_high_run (c n : Nat) (rest : List Bool) :
    segmentFrom true c (List.replicate n true ++ false :: rest) = (c + n) :: segmentFrom false (c + n) rest := by
  induction n generalizing c with
  | zero => rfl
  | succ n ih => rw [List.replicate_succ, List.cons_append, segmentFrom, ih, Nat.add_right_comm, Nat.add_assoc]

/-- The reference segmenter gets back the widths of the synthesised pulses. -/
theorem segmentFrom_pulses (t c : Nat) (bits : List Bool) :
    segmentFrom false c (bits.flatMap (pulseSamples t)) = bits.map fun b => if b then t + 1 else 1 := by
  induction bits generalizing c with
  | nil => rfl
  | cons b bits ih =>
    have hwidth : 1 + (if b then t else 0) = if b then t + 1 else 1 := by cases b <;> simp [Nat.add_comm]
    have hrun : pulseSamples t b = true :: (List.replicate (if b then t else 0) true ++ [false]) := by
      cases b <;> rfl
    rw [List.flatMap_cons, hrun, List.cons_append, List.append_assoc, segmentFrom, List.singleton_append,
      segmentFrom_high_run, ih, hwidth, List.map_cons]

/-- Classified at the threshold they were made for, the synthesised pulses are the bits again. -/
theorem classifyAll_pulses {t : Nat} (ht : 1 ≤ t) (bits : List Bool) :
    classifyAll (segmentOf (bits.flatMap (pulseSamples t))) t = bits := by
  rw [segmentOf, segmentFrom_pulses, classifyAll, List.map_map]
  have hbit : ∀ b : Bool, decide (t < if b then t + 1 else 1) = b := by
    intro b
    cases b <;> simp
    omega
  simp [Function.comp_def, hbit]

theorem insideCapture_ok {tw : ThreshWidth} {p : PortIn} {i : Instr} (hr : p.rst = false) (hv : p.cmdValid = true)
    (hd : decode tw p.cmd = .ok i) : insideCapture tw p = (decide (i ≠ .start) && decide (i ≠ .endCapture)) := by
  cases i <;> simp [insideCapture, hr, hv, hd]

/-- The cycle that issues SAMPLE x. -/
def sampleCycle (x : Bool) : PortIn := commandCycle (encode (.sample x))

theorem sampleOf_sampleCycle (tw : ThreshWidth) (x : Bool) : sampleOf tw (sampleCycle x) = some x :=
  sampleOf_ok (i := .sample x) rfl rfl (decodeEncodeAgree tw (.sample x) rfl)

theorem insideCapture_sampleCycle (tw : ThreshWidth) (x : Bool) : insideCapture tw (sampleCycle x) = true :=
  insideCapture_ok (i := .sample x) rfl rfl (decodeEncodeAgree tw (.sample x) rfl)

theorem samplesOf_sampleCycles (tw : ThreshWidth) (samples : List Bool) :
    samplesOf tw (samples.map sampleCycle) = samples := by
  simp [samplesOf, List.filterMap_map, sampleOf_sampleCycle]

/-- Bit `i` of byte `j` of a byte sequence, in the order in which the bits are sent. -/
theorem getD_flatMap_msbFirst (bytes : List Byte) (j : Nat) {i : Nat} (hi : i < 8) :
    (bytes.flatMap msbFirst).getD (8 * j + i) false = (bytes.getD j 0).getLsbD (7 - i) := by
  have hlen : ∀ x : Byte, (msbFirst x).length = 8 := fun x => by simp [msbFirst]
  induction bytes generalizing j with
  | nil => simp
  | cons x bytes ih =>
    rw [List.flatMap_cons]
    cases j with
    | zero =>
      rw [List.getD_append _ _ _ _ (by rw [hlen]; omega)]
      simp [msbFirst, hi]
    | succ j =>
      have hindex : 8 * (j + 1) + i - 8 = 8 * j + i := by omega
      rw [List.getD_append_right _ _ _ _ (by rw [hlen]; omega), hlen, hindex, ih, List.getD_cons_succ]

/-- The bytes of ACC are the ones whose bits it holds, the highest bit first (42_frame_decoder.md rule R120, step 2). -/
theorem HoldsBits.frameByte_eq {s : State} {bytes : List Byte} (h : HoldsBits s (bytes.flatMap msbFirst)) (j : Fin 5) :
    frameByte s.acc j = bytes.getD j.val 0 := by
  refine BitVec.eq_of_getLsbD_eq fun i hi => ?_
  have hbit := h.frameByte_bit j (i := 7 - i) (by omega)
  rwa [getD_flatMap_msbFirst bytes _ (by omega), Nat.sub_sub_self (by omega)] at hbit

/-- The cycles of a whole capture of synthesised pulses. -/
theorem sendFrame_cycles (t : Nat) (bytes : List Byte) :
    ((Instr.start :: sendFrameCmds t bytes ++ [Instr.endCapture]).map fun i => commandCycle (encode i)) =
      commandCycle 0x2000 :: ((bytes.flatMap msbFirst).flatMap (pulseSamples t)).map sampleCycle ++
        [commandCycle 0x3000] := by
  rw [sendFrameCmds_eq, List.map_append, List.map_cons, List.map_map]
  rfl

/-- Settles O47: the synthesised samples give the bytes' bits, so ACC holds the bytes, whose checksum is the fifth. -/
theorem sendFrameRoundTrip : Obligations.SendFrameRoundTrip := by
  intro s b0 b1 b2 b3 t hs hpos ht hthresh b4 frame
  have hinside : ∀ q ∈ (([b0, b1, b2, b3, b4].flatMap msbFirst).flatMap (pulseSamples t)).map sampleCycle,
      insideCapture s.tw q = true :=
    List.forall_mem_map.2 fun x _ => insideCapture_sampleCycle s.tw x
  obtain ⟨u, hu, hresult, hbits⟩ := runCycles_whole_capture ht (.inl ⟨rfl, hs, hthresh⟩) hinside
  rw [samplesOf_sampleCycles, classifyAll_pulses hpos] at hbits
  have h0 : frameByte u.acc 0 = b0 := hbits.frameByte_eq 0
  have h1 : frameByte u.acc 1 = b1 := hbits.frameByte_eq 1
  have h2 : frameByte u.acc 2 = b2 := hbits.frameByte_eq 2
  have h3 : frameByte u.acc 3 = b3 := hbits.frameByte_eq 3
  have h4 : frameByte u.acc 4 = b4 := hbits.frameByte_eq 4
  have hsum : expSum u.acc = b4 := by rw [expSum, h0, h1, h2, h3]
  have hfull : u.bitcnt.toNat = 40 := by rw [hbits.count]; simp [msbFirst]
  have hok : u.result = .ok := hresult.trans ((judge_ok_iff _ _).2 ⟨hfull.ge, hsum.trans h4.symm⟩)
  refine ⟨u, ?run, hok, ?frame01, ?frame23, ?check, ?hum10, ?temp10⟩
  case run => rw [sendFrame_cycles]; exact hu
  case frame01 => rw [regRead_frame01, h0, h1]
  case frame23 => rw [regRead_frame23, h2, h3]
  case check => rw [regRead_check, hsum, h4]
  case hum10 => rw [regRead_hum10_of_ok hok, h0, h1]
  case temp10 => rw [regRead_temp10_of_ok hok, h2, h3]

end Sys2Proof.Machine
end
